-- ==== Sys2Proof/Word.lean ====
section
/-! DEFINITION. The three sizes of value the spec names (00_scope.md R9): byte, halfword, word. -/

namespace Sys2Proof

/-- 8 bits (00_scope.md R9). -/
abbrev Byte := BitVec 8

/-- 16 bits (00_scope.md R9): a PackedColor, an attribute field, a framebuffer cell. -/
abbrev Half := BitVec 16

/-- 32 bits (00_scope.md R9): a command word, a response word, the register DT. -/
abbrev Word := BitVec 32

end Sys2Proof
end

