-- ==== Sys2Proof/Cause.lean ====
section
/-! DEFINITION. The causes a command can raise (60_exceptions.md R102). The number of each is causeCode in
Machine/Ops.lean. -/

namespace Sys2Proof

/-- The causes of 60_exceptions.md R102, in its order. FAULT holds none or one of these (10_state.md R30). -/
inductive Cause where
  /-- Header OPC not in the opcode map (30_encoding.md R61). -/
  | illegalOpcode
  /-- Header bits [31:8] not 0 (30_encoding.md R62). -/
  | reservedNonzero
  /-- The stream ends inside a command (30_encoding.md R63). -/
  | truncatedCommand
  /-- Palette index outside [0,256). -/
  | palIndexRange
  /-- Tile block or offset negative. -/
  | tileNegative
  /-- Tile transfer past the end of its region. -/
  | tileOverrun
  /-- Mode-3 coordinate outside the screen. -/
  | m3CoordRange
  /-- Mode-4 coordinate outside the screen. -/
  | m4CoordRange
  /-- Mode-4 palette index outside [0,256). -/
  | m4ColorRange
  /-- Sprite slot outside [0,128). -/
  | oamIndexRange
  /-- Attribute field outside 0, 1, 2. -/
  | attrFieldRange
  deriving DecidableEq, Repr

end Sys2Proof
end

