-- ==== Sys2Proof/Config.lean ====
section
/-! DEFINITION. The configuration of 00_scope.md R6 (sizes, base addresses, bit positions) and the free values.
The two OPEN parameters of R6, DISPCNT_AT_INSTALL and MEM_AT_INSTALL, are no constants: they are the arguments of
State.install (Machine/State.lean). -/

namespace Sys2Proof.Config

/-- Number of sprite records in SH and in OAM. -/
@[simp] abbrev oamSlots : Nat := 128
/-- Fields SET_ATTR can name: attr0, attr1, attr2. -/
@[simp] abbrev attrFields : Nat := 3
/-- Slots of each palette table. -/
@[simp] abbrev palSlots : Nat := 256
/-- Bytes of one tile block. -/
@[simp] abbrev tileBlockBytes : Nat := 64
/-- Halfword cells of one mode-4 row. -/
@[simp] abbrev m4RowCells : Nat := 120
/-- Base of mode-4 page 0. -/
@[simp] abbrev m4Page0 : Word := 0x06000000#32
/-- Base of mode-4 page 1. -/
@[simp] abbrev m4Page1 : Word := 0x0600A000#32
/-- Pixels of one row (D9). -/
@[simp] abbrev screenWidth : Nat := 240
/-- Rows of the screen (D9). -/
@[simp] abbrev screenHeight : Nat := 160
/-- Bytes of one record: three fields and a filler halfword (D11). -/
@[simp] abbrev recordStride : Nat := 8
/-- Background palette (D7). -/
@[simp] abbrev palBgBase : Nat := 0x05000000
/-- Object palette (D7). -/
@[simp] abbrev palObjBase : Nat := 0x05000200
/-- Background tile memory (D7). -/
@[simp] abbrev bgTileBase : Nat := 0x06000000
/-- Size in bytes of background tile memory (D8). -/
@[simp] abbrev bgTileSize : Nat := 0x10000
/-- Object tile memory (D7). -/
@[simp] abbrev objTileBase : Nat := 0x06010000
/-- Size in bytes of object tile memory (D8). -/
@[simp] abbrev objTileSize : Nat := 0x8000
/-- Mode-3 framebuffer (D7). -/
@[simp] abbrev m3FbBase : Nat := 0x06000000
/-- Hardware object attribute table (D7). -/
@[simp] abbrev oamBase : Nat := 0x07000000
/-- Size in bytes of SH and of OAM: OAM_SLOTS * RECORD_STRIDE (00_scope.md R7). -/
@[simp] abbrev oamBytes : Nat := 1024
/-- Display-control register, 16 bits (D7, D10). -/
@[simp] abbrev dispcntAddr : Nat := 0x04000000
/-- The page-select bit of DISPCNT (D10). -/
@[simp] abbrev pageBit : Nat := 4
/-- The 'disabled' encoding of attr0 (D12). -/
@[simp] abbrev attr0Disabled : Half := 0x0200#16
/-- First address outside the console's address space (20_memory.md R34). -/
@[simp] abbrev spaceBytes : Nat := 0x100000000

/-- The `n`-th draw of `draw32()` (00_scope.md R12, D15): the response of RGB5 and RGB8 to a channel out of range.
FREE VALUE: it has no body, so nothing can be proved of a draw. The step counts the draws in `State.draws`.
Safe: the hardware's word is one of those this leaves open (log entry 5). -/
opaque freeDraw : Nat → Word

end Sys2Proof.Config
end

