-- ==== Sys2Proof/Machine/Memory.lean ====
section
/-! DEFINITION. Console memory (20_memory.md R34 to R37): one byte for each of the 2^32 addresses, as the canonical list of
the bytes that differ from what an unlisted address reads as; the primitives MemRead and MemWrite over it (00_scope.md
R11); and the memory and shadow buffer that install leaves (70_reset_and_hazards.md R119). -/

namespace Sys2Proof.Machine

/-- Console memory: (address, byte) cells, addresses rising, no cell equal to `unlistedByte`. -/
abbrev Memory := List Host.Cell

/-- What an address with no cell reads as. DESIGN CHOICE, unsafe when it stands for a byte nothing has written
(MEM_AT_INSTALL is OPEN, D25; log entry 3). -/
def unlistedByte : Byte := 0#8

/-- `byte(a)`: the byte at console address `a`. -/
def Memory.read : Memory → Nat → Byte
  | [], _ => unlistedByte
  | (k, v) :: m, a => if k = a then v else Memory.read m a

/-- The cells of bytes laid at `a`, `a+1`, … : a byte equal to `unlistedByte` has none. -/
def cellsFrom (a : Nat) : List Byte → Memory
  | [] => []
  | b :: bs => if b = unlistedByte then cellsFrom (a + 1) bs else (a, b) :: cellsFrom (a + 1) bs

/-- The cells at address `e` and above. -/
def dropBelow (e : Nat) : Memory → Memory
  | [] => []
  | (k, v) :: m => if k < e then dropBelow e m else (k, v) :: m

/-- Memory after the bytes `bs` are written to `a`, `a+1`, … . The one write of the model: MemWrite (00_scope.md R11), a
tile transfer (41_tile_transfer.md R74) and the commit (43_object_attributes.md R89) are all this. -/
def Memory.writeRun (a : Nat) (bs : List Byte) : Memory → Memory
  | [] => cellsFrom a bs
  | (k, v) :: m =>
    if k < a then (k, v) :: Memory.writeRun a bs m
    else cellsFrom a bs ++ dropBelow (a + bs.length) ((k, v) :: m)

/-- Canonical form from address `lo` on: addresses rise from `lo`, stay inside the 32-bit space, and no cell holds
`unlistedByte`. -/
def Memory.wfFrom (lo : Nat) : Memory → Bool
  | [] => true
  | (k, v) :: m =>
    decide (lo ≤ k) && decide (k < Config.spaceBytes) && decide (v ≠ unlistedByte) && Memory.wfFrom (k + 1) m

/-- The canonical form of a memory. -/
def Memory.wf (m : Memory) : Bool := Memory.wfFrom 0 m

/-- The two bytes of a halfword, low byte first (20_memory.md R37). -/
def halfBytes (v : Half) : List Byte := [v.extractLsb' 0 8, v.extractLsb' 8 8]

/-- MemRead(a, 2): the little-endian halfword at `a` (00_scope.md R11, 20_memory.md R37). -/
def Memory.readHalf (m : Memory) (a : Nat) : Half := m.read (a + 1) ++ m.read a

/-- MemWrite(a, 2, v) (00_scope.md R11, 20_memory.md R37). -/
def Memory.writeHalf (a : Nat) (v : Half) (m : Memory) : Memory := m.writeRun a (halfBytes v)

/-- MemRead(a, n) for any n, as the integer of 00_scope.md R11: what MemRead gives at
any width. What the host reads is State.hostRead (Machine/HostAgent.lean), which tests the alignment. -/
def Memory.readLe (m : Memory) : Nat → Nat → Nat
  | _, 0 => 0
  | a, n + 1 => (m.read a).toNat + 256 * m.readLe (a + 1) n

/-- The `n` low bytes of `v`, least significant first: what MemWrite(a, n, v) writes (00_scope.md R11). -/
def leBytes : Nat → Nat → List Byte
  | 0, _ => []
  | n + 1, v => BitVec.ofNat 8 v :: leBytes n (v / 256)

/-- One shadow record as install writes it: attr0 disabled, attr1, attr2 and the filler 0 (70_reset_and_hazards.md R119). -/
def installRecord : List Byte :=
  halfBytes Config.attr0Disabled ++ halfBytes 0#16 ++ halfBytes 0#16 ++ halfBytes 0#16

/-- SH after install: 128 such records (70_reset_and_hazards.md R119, 10_state.md R33). -/
def installShadow : Vector Byte 1024 where
  toArray := (List.replicate 128 installRecord).flatten.toArray
  size_toArray := by
    rw [List.size_toArray, List.length_flatten, List.map_replicate, List.sum_replicate]
    rfl

/-- Console memory after install: DISPCNT holds `dispcnt`, OAM is the install commit's copy of SH, and every other byte is
that of `mem`, the memory install found (70_reset_and_hazards.md R119, R120). -/
def installMemory (dispcnt : Half) (mem : Memory) : Memory :=
  (mem.writeHalf Config.dispcntAddr dispcnt).writeRun Config.oamBase installShadow.toList

end Sys2Proof.Machine
end

