-- ==== Sys2Proof/Machine/State.lean ====
section
/-! DEFINITION. The machine's state (10_state.md R17), the ways a step can stop, and the state install leaves
(70_reset_and_hazards.md R119, R120). -/

namespace Sys2Proof.Machine

/-- Width of a host access (20_memory.md R48: any width; a wider access is several of these, log entry 4). -/
inductive Width where
  | byte
  | half
  | word
  deriving DecidableEq, Repr

/-- A host write of console memory between two commands (20_memory.md R48): it is made when the command index has reached
`before`, so before the command of that index runs. -/
structure HostWrite where
  before : Nat
  addr : Word
  width : Width
  value : Word
  deriving DecidableEq, Repr

/-- Everything the spec gives the machine (10_state.md R17), and three fields of the model's own. Console memory holds the
palettes, tile memory, framebuffers, OAM and DISPCNT, each at its address (20_memory.md R35, R36). -/
structure State where
  /-- SH, the shadow buffer (10_state.md R24). -/
  sh : Vector Byte 1024
  /-- DT, the draw target (10_state.md R21). -/
  dt : Word
  /-- pc, the index of the next command (10_state.md R19). -/
  pc : Nat
  /-- FAULT, none or the recorded cause (10_state.md R30). -/
  fault : Option Cause
  /-- RESP, the response words, oldest first (10_state.md R31). -/
  resp : List Word
  /-- Console memory (20_memory.md R34). -/
  mem : Memory
  /-- The model's own: the delivered words that no completed command has used (30_encoding.md R53; log entry 1). -/
  stream : List Word
  /-- The model's own: the host's writes to come (20_memory.md R48; log entry 4). -/
  hostWrites : List HostWrite
  /-- The model's own: number of free words drawn (00_scope.md R12; log entry 5). -/
  draws : Nat
  deriving DecidableEq, Repr

/-- Why the machine stops. -/
inductive Fault where
  /-- Raised by step when FAULT holds a cause: the block executes no further command (10_state.md R30, 60_exceptions.md
  R104). Safe: the software would go on with corrupted memory, of which nothing can then be claimed. -/
  | stopped (c : Cause)
  /-- Raised by step when the stream has ended between two commands with FAULT none: the normal end of a run
  (70_reset_and_hazards.md R135). Safe. -/
  | endOfRun
  /-- Raised by M4_SET_PIXEL alone, when DT holds a value no command writes (10_state.md R21) and the cell would lie past
  address 0xFFFFFFFF (20_memory.md R34). Safe: no run reaches it. -/
  | outsideAddressSpace
  deriving DecidableEq, Repr

/-- Why there is no meaning. -/
inductive Refusal where
  /-- Raised by exec for an instruction that has no meaning yet (none is left). Safe. -/
  | notModelled (mnemonic : String)
  /-- Raised by step for a host write to an address that is no multiple of its width: the spec leaves misaligned host
  accesses outside the model (60_exceptions.md R117, D36). No command raises it. Safe. -/
  | misalignedHostAccess
  deriving DecidableEq, Repr

/-- What a step of this machine answers. -/
abbrev Outcome := Host.Outcome State Fault Refusal

/-- The state install leaves (70_reset_and_hazards.md R119), for every value of the two OPEN parameters (00_scope.md R6):
`dispcnt` is DISPCNT_AT_INSTALL and `mem` is MEM_AT_INSTALL. -/
def State.install (dispcnt : Half) (mem : Memory) : State where
  sh := installShadow
  dt := Config.m4Page1
  pc := 0
  fault := none
  resp := []
  mem := installMemory dispcnt mem
  stream := []
  hostWrites := []
  draws := 0

/-- The state after install with both OPEN parameters zero. DESIGN CHOICE, unsafe: the spec leaves them free (log entries 2
and 3); a claim about install is stated of `State.install`. -/
def State.reset : State := State.install 0x0000#16 []

end Sys2Proof.Machine
end

