-- ==== Sys2Proof/Machine/Operands.lean ====
section
/-! DEFINITION. How a command reads its operand words (00_scope.md R9, R10; 30_encoding.md R55), and the addresses and packed
values it computes from them. Arithmetic is on mathematical integers and never wraps (00_scope.md R9). -/

namespace Sys2Proof.Machine

/-- `0 <= s(w) < n`: the range test of an operand, on its signed value (30_encoding.md R55). -/
def inRange (w : Word) (n : Nat) : Bool := decide (0 ≤ w.toInt) && decide (w.toInt < (n : Int))

/-- `s(w) < 0`. -/
def isNegative (w : Word) : Bool := decide (w.toInt < 0)

/-- `s(w)` as a natural number, for an operand that has passed a test that it is not negative. -/
def operandNat (w : Word) : Nat := w.toInt.toNat

/-- `trunc_16(u(w))`: a 16-bit data operand (30_encoding.md R55, D4). -/
def low16 (w : Word) : Half := w.setWidth 16

/-- `zext_32` of a halfword (30_encoding.md R59). -/
def zextHalf (h : Half) : Word := h.setWidth 32

/-- The PackedColor `(b << 10) | (g << 5) | r` of three 5-bit channels (40_color_palette.md R67, R71). -/
def packColor (r g b : Nat) : Half := BitVec.ofNat 16 ((b <<< 10) ||| (g <<< 5) ||| r)

/-- Address of slot `i` of a palette table (10_state.md R28). -/
def paletteSlot (base i : Nat) : Nat := base + 2 * i

/-- Destination of a tile transfer: `base + blk*64 + off` (41_tile_transfer.md R73). -/
def tileDest (base : Nat) (block offset : Word) : Nat :=
  base + operandNat block * Config.tileBlockBytes + operandNat offset

/-- `blk*64 + off + n > size`: the transfer passes the end of its region (41_tile_transfer.md R73). -/
def tileOverruns (size : Nat) (block offset : Word) (n : Nat) : Bool :=
  decide ((size : Int) < block.toInt * (Config.tileBlockBytes : Int) + offset.toInt + (n : Int))

/-- `0 <= x < SCREEN_WIDTH and 0 <= y < SCREEN_HEIGHT` (42_framebuffer.md R81, R84). -/
def onScreen (x y : Word) : Bool := inRange x Config.screenWidth && inRange y Config.screenHeight

/-- Address of mode-3 pixel (x, y) (42_framebuffer.md R80). -/
def m3Cell (x y : Nat) : Nat := Config.m3FbBase + 2 * (y * Config.screenWidth + x)

/-- Address of the cell of mode-4 pixel (x, y) in the page at `page` (42_framebuffer.md R82). -/
def m4Cell (page : Word) (x y : Nat) : Nat := page.toNat + 2 * (y * Config.m4RowCells + x / 2)

/-- The bits of a mode-4 cell that M4_SET_PIXEL keeps: the other pixel's lane (42_framebuffer.md R84, R85). -/
def m4Keep (x : Nat) : Half := if x % 2 = 1 then 0x00FF#16 else 0xFF00#16

/-- The palette index `p` in its own lane of the cell (42_framebuffer.md R84, R85). -/
def m4Lane (x p : Nat) : Half := if x % 2 = 1 then BitVec.ofNat 16 (p <<< 8) else BitVec.ofNat 16 p

/-- Byte offset of field `f` of record `i` in SH and in OAM (10_state.md R24, R29). -/
def fieldOffset (i f : Nat) : Nat := i * Config.recordStride + 2 * f

/-- `(h >> lo) & ((1 << w) - 1)`, zero-extended to 32 bits (43_object_attributes.md R90). -/
def subField (h : Half) (lo w : Nat) : Word := BitVec.ofNat 32 ((h.toNat >>> lo) &&& ((1 <<< w) - 1))

/-- Bytes of a host access (20_memory.md R48). -/
def Width.bytes : Width → Nat
  | .byte => 1
  | .half => 2
  | .word => 4

end Sys2Proof.Machine
end

