-- ==== Sys2Proof/Machine/Ops.lean ====
section
/-! DEFINITION. The named operations over the state: raising a cause (the one way an exception is taken), completing a
command, responding, reading and writing memory, SH and DT. -/

namespace Sys2Proof.Machine

/-- Code of a cause (60_exceptions.md R102). -/
def causeCode : Cause → Byte
  | .illegalOpcode => 0x01#8
  | .reservedNonzero => 0x02#8
  | .truncatedCommand => 0x03#8
  | .palIndexRange => 0x10#8
  | .tileNegative => 0x20#8
  | .tileOverrun => 0x21#8
  | .m3CoordRange => 0x30#8
  | .m4CoordRange => 0x40#8
  | .m4ColorRange => 0x41#8
  | .oamIndexRange => 0x50#8
  | .attrFieldRange => 0x51#8

/-- The state a raise leaves: FAULT holds the cause, and nothing else changes: pc stays at the faulting command, no write of
the command happens (00_scope.md R13; 60_exceptions.md R103, R104, R105). -/
def State.raised (c : Cause) (s : State) : State := { s with fault := some c }

/-- `raise Undefined(cause)`: fault entry (60_exceptions.md R104). There is no return from it: no command clears FAULT, and
the block runs nothing more (60_exceptions.md R107). -/
def raiseUndefined (c : Cause) (s : State) : Outcome := .next (s.raised c)

/-- `pc <- pc + 1` (10_state.md R19). -/
def State.advance (s : State) : State := { s with pc := s.pc + 1 }

/-- The end of a command that raises nothing: pc advances as its last action (10_state.md R19). -/
def complete (s : State) : Outcome := .next s.advance

/-- `respond(v)` (00_scope.md R12). -/
def State.respond (v : Word) (s : State) : State := { s with resp := s.resp ++ [v] }

/-- `respond(draw32())`: the response is a FREE VALUE, a fresh one at each use (00_scope.md R12, D15; log entry 5). -/
def State.respondFree (s : State) : State :=
  { s with resp := s.resp ++ [Config.freeDraw s.draws], draws := s.draws + 1 }

/-- Writes bytes to console memory at `a`, `a+1`, … . -/
def State.writeBytes (a : Nat) (bs : List Byte) (s : State) : State := { s with mem := s.mem.writeRun a bs }

/-- MemRead(a, 2). -/
def State.readHalf (s : State) (a : Nat) : Half := s.mem.readHalf a

/-- MemWrite(a, 2, v). -/
def State.writeHalf (a : Nat) (v : Half) (s : State) : State := { s with mem := s.mem.writeHalf a v }

/-- Byte `k` of SH (10_state.md R24). -/
def State.shByte (s : State) (k : Nat) : Byte := s.sh[k]?.getD 0#8

/-- SH.Read(off, 2) (00_scope.md R12). -/
def State.shRead (s : State) (off : Nat) : Half := s.shByte (off + 1) ++ s.shByte off

/-- SH.Write(off, 2, v) (00_scope.md R12). -/
def State.shWrite (off : Nat) (v : Half) (s : State) : State :=
  { s with sh := (s.sh.setIfInBounds off (v.extractLsb' 0 8)).setIfInBounds (off + 1) (v.extractLsb' 8 8) }

/-- `DT <- v`. -/
def State.setDt (v : Word) (s : State) : State := { s with dt := v }

/-- The display-control register (10_state.md R22). -/
def State.dispcnt (s : State) : Half := s.readHalf Config.dispcntAddr

/-- Byte `k` of OAM (10_state.md R29). -/
def State.oamByte (s : State) (k : Nat) : Byte := s.mem.read (Config.oamBase + k)

/-- Field `f` of slot `i` of OAM (10_state.md R29). -/
def State.oamField (s : State) (i f : Nat) : Half := s.readHalf (Config.oamBase + fieldOffset i f)

/-- A tile transfer's effect: byte `j` goes to address `d + j`, every other byte keeps its value (41_tile_transfer.md R74).
The halfword accesses that produce it are `tilePlan` in Machine/Bus.lean (R77); Laws/Bus.lean proves that they do. -/
def State.tileCopy (d : Nat) (bytes : List Byte) (s : State) : State := s.writeBytes d bytes

/-- The commit: all 1024 bytes of SH to OAM (43_object_attributes.md R89). The 512 halfword writes are `commitPlan` in
Machine/Bus.lean; Laws/Bus.lean proves that they have this effect. -/
def State.commit (s : State) : State := s.writeBytes Config.oamBase s.sh.toList

end Sys2Proof.Machine
end

