-- ==== Sys2Proof/Machine/Color.lean ====
section
/-! DEFINITION. The colour codec: RGB5 and RGB8 (40_color_palette.md R67, R68). -/

namespace Sys2Proof.Machine

/-- Packs three channels when each lies in `[0, limit)`, shifted right by `shift` first; else the response is free (R67, R68).
Neither command raises a cause. -/
def packCommand (limit shift : Nat) (r g b : Word) (s : State) : Outcome :=
  if inRange r limit && inRange g limit && inRange b limit then
    complete (s.respond (zextHalf
      (packColor (operandNat r >>> shift) (operandNat g >>> shift) (operandNat b >>> shift))))
  else complete s.respondFree

/-- RGB5 (40_color_palette.md R67). -/
def execRgb5 (r g b : Word) (s : State) : Outcome := packCommand 32 0 r g b s

/-- RGB8 (40_color_palette.md R68). -/
def execRgb8 (r g b : Word) (s : State) : Outcome := packCommand 256 3 r g b s

end Sys2Proof.Machine
end

