-- ==== Sys2Proof/Machine/Framebuffer.lean ====
section
/-! DEFINITION. The mode-3 plotter, the page flip and the mode-4 plotter (42_framebuffer.md R80 to R87). -/

namespace Sys2Proof.Machine

/-- M3_SET_PIXEL (42_framebuffer.md R81). -/
def execM3SetPixel (x y color : Word) (s : State) : Outcome :=
  if onScreen x y then complete (s.writeHalf (m3Cell (operandNat x) (operandNat y)) (low16 color))
  else raiseUndefined .m3CoordRange s

/-- The other mode-4 page, by the value of DT alone (42_framebuffer.md R83). -/
def otherPage (dt : Word) : Word := if dt = Config.m4Page0 then Config.m4Page1 else Config.m4Page0

/-- The mask of PAGE_BIT in DISPCNT (10_state.md R22). -/
def pageMask : Half := BitVec.ofNat 16 (1 <<< Config.pageBit)

/-- M4_FLIP (42_framebuffer.md R83): the page bit is inverted in place, DT is toggled on its own value. -/
def execM4Flip (s : State) : Outcome :=
  complete ((s.writeHalf Config.dispcntAddr (s.dispcnt ^^^ pageMask)).setDt (otherPage s.dt))

/-- The cell after one lane is replaced: read, keep the other lane, put the index in (42_framebuffer.md R84). -/
def m4NewCell (x p : Nat) (old : Half) : Half := (old &&& m4Keep x) ||| m4Lane x p

/-- M4_SET_PIXEL (42_framebuffer.md R84): coordinates are tested before the index. The test of the address can fail only
when DT holds a value no command writes. -/
def execM4SetPixel (x y color : Word) (s : State) : Outcome :=
  if !onScreen x y then raiseUndefined .m4CoordRange s
  else if !inRange color 256 then raiseUndefined .m4ColorRange s
  else
    let a := m4Cell s.dt (operandNat x) (operandNat y)
    if a + 1 < Config.spaceBytes then
      complete (s.writeHalf a (m4NewCell (operandNat x) (operandNat color) (s.readHalf a)))
    else .fault .outsideAddressSpace

end Sys2Proof.Machine
end

