-- ==== Sys2Proof/Machine/Palette.lean ====
section
/-! DEFINITION. The palette tables: BG_SET and OBJ_SET (40_color_palette.md R69, R70). -/

namespace Sys2Proof.Machine

/-- Writes one slot of the palette table at `base` (40_color_palette.md R69, R70). -/
def paletteSet (base : Nat) (index color : Word) (s : State) : Outcome :=
  if inRange index Config.palSlots then
    complete (s.writeHalf (paletteSlot base (operandNat index)) (low16 color))
  else raiseUndefined .palIndexRange s

/-- BG_SET (40_color_palette.md R69). -/
def execBgSet (index color : Word) (s : State) : Outcome := paletteSet Config.palBgBase index color s

/-- OBJ_SET (40_color_palette.md R70). -/
def execObjSet (index color : Word) (s : State) : Outcome := paletteSet Config.palObjBase index color s

end Sys2Proof.Machine
end

