-- ==== Sys2Proof/Machine/Sprite.lean ====
section
/-! DEFINITION. The sprite-attribute shadow buffer and the field codecs (43_object_attributes.md R88 to R95). -/

namespace Sys2Proof.Machine

/-- SET_ATTR (43_object_attributes.md R88): the slot is tested before the field; the filler halfword is no field. -/
def execSetAttr (index field value : Word) (s : State) : Outcome :=
  if !inRange index Config.oamSlots then raiseUndefined .oamIndexRange s
  else if !inRange field Config.attrFields then raiseUndefined .attrFieldRange s
  else complete (s.shWrite (fieldOffset (operandNat index) (operandNat field)) (low16 value))

/-- UPDATE_OAM (43_object_attributes.md R89). -/
def execUpdateOam (s : State) : Outcome := complete s.commit

/-- `Codec(f, lo, w)` (43_object_attributes.md R90): the sub-field of `w` bits at bit `lo` of field `f` of the slot, read from
OAM and never from SH. -/
def codec (f lo w : Nat) (index : Word) (s : State) : Outcome :=
  if inRange index Config.oamSlots then
    complete (s.respond (subField (s.oamField (operandNat index) f) lo w))
  else raiseUndefined .oamIndexRange s

/-- ATTR0_OBJY: attr0[7:0] (43_object_attributes.md R91). -/
def execAttr0Objy (index : Word) (s : State) : Outcome := codec 0 0 8 index s

/-- ATTR1_OBJX: attr1[8:0] (43_object_attributes.md R92). -/
def execAttr1Objx (index : Word) (s : State) : Outcome := codec 1 0 9 index s

/-- ATTR1_ROT: attr1[13:9] (43_object_attributes.md R93). -/
def execAttr1Rot (index : Word) (s : State) : Outcome := codec 1 9 5 index s

/-- ATTR2_PRIORITY: attr2[11:10] (43_object_attributes.md R94). -/
def execAttr2Priority (index : Word) (s : State) : Outcome := codec 2 10 2 index s

/-- ATTR2_PALETTE: attr2[15:12] (43_object_attributes.md R95). -/
def execAttr2Palette (index : Word) (s : State) : Outcome := codec 2 12 4 index s

end Sys2Proof.Machine
end

