-- ==== Sys2Proof/Machine/Tile.lean ====
section
/-! DEFINITION. The tile engine: BG_WRITE and OBJ_WRITE (41_tile_transfer.md R73 to R76). -/

namespace Sys2Proof.Machine

/-- A tile transfer into the region of `size` bytes at `base`: the tests in the order of 41_tile_transfer.md R75, then the
copy. -/
def tileWrite (base size : Nat) (block offset : Word) (bytes : List Byte) (s : State) : Outcome :=
  if isNegative block || isNegative offset then raiseUndefined .tileNegative s
  else if tileOverruns size block offset bytes.length then raiseUndefined .tileOverrun s
  else complete (s.tileCopy (tileDest base block offset) bytes)

/-- BG_WRITE (41_tile_transfer.md R75). -/
def execBgWrite (block offset : Word) (bytes : List Byte) (s : State) : Outcome :=
  tileWrite Config.bgTileBase Config.bgTileSize block offset bytes s

/-- OBJ_WRITE (41_tile_transfer.md R76). -/
def execObjWrite (block offset : Word) (bytes : List Byte) (s : State) : Outcome :=
  tileWrite Config.objTileBase Config.objTileSize block offset bytes s

end Sys2Proof.Machine
end

