-- ==== Sys2Proof/Syntax.lean ====
section
/-! DEFINITION. The 16 commands of the block, one constructor per row of spec/opcode_table.json (30_encoding.md R56, R60). -/

namespace Sys2Proof

/-- A command with its operands in the order of 30_encoding.md R56. An operand is a whole 32-bit word (R55).
BG_WRITE and OBJ_WRITE carry their byte sequence itself: its length is the operand word `n`, and the padding bytes of the
last data word, which the block ignores (R57), are no part of it. -/
inductive Instr where
  /-- RGB5 r, g, b (40_color_palette.md R67). -/
  | rgb5 (r g b : Word)
  /-- RGB8 r, g, b (40_color_palette.md R68). -/
  | rgb8 (r g b : Word)
  /-- BG_SET index, color (40_color_palette.md R69). -/
  | bgSet (index color : Word)
  /-- OBJ_SET index, color (40_color_palette.md R70). -/
  | objSet (index color : Word)
  /-- BG_WRITE block, offset, bytes (41_tile_transfer.md R75). -/
  | bgWrite (block offset : Word) (bytes : List Byte)
  /-- OBJ_WRITE block, offset, bytes (41_tile_transfer.md R76). -/
  | objWrite (block offset : Word) (bytes : List Byte)
  /-- M3_SET_PIXEL x, y, color (42_framebuffer.md R81). -/
  | m3SetPixel (x y color : Word)
  /-- M4_FLIP (42_framebuffer.md R83). -/
  | m4Flip
  /-- M4_SET_PIXEL x, y, color (42_framebuffer.md R84). -/
  | m4SetPixel (x y color : Word)
  /-- SET_ATTR index, field, value (43_object_attributes.md R88). -/
  | setAttr (index field value : Word)
  /-- UPDATE_OAM (43_object_attributes.md R89). -/
  | updateOam
  /-- ATTR0_OBJY index (43_object_attributes.md R91). -/
  | attr0Objy (index : Word)
  /-- ATTR1_OBJX index (43_object_attributes.md R92). -/
  | attr1Objx (index : Word)
  /-- ATTR1_ROT index (43_object_attributes.md R93). -/
  | attr1Rot (index : Word)
  /-- ATTR2_PRIORITY index (43_object_attributes.md R94). -/
  | attr2Priority (index : Word)
  /-- ATTR2_PALETTE index (43_object_attributes.md R95). -/
  | attr2Palette (index : Word)
  deriving DecidableEq, Repr

end Sys2Proof
end

