-- ==== Sys2Proof/Machine/Dispatch.lean ====
section
/-! DEFINITION. The meaning of each command (30_encoding.md R60), one arm per constructor of Instr. -/

namespace Sys2Proof.Machine

/-- Executes one command. FAULT is not looked at here: step runs no command while it holds a cause (10_state.md R30). -/
def exec (i : Instr) (s : State) : Host.Outcome State Fault Refusal :=
  match i with
  | .rgb5 r g b => Sys2Proof.Machine.execRgb5 r g b s
  | .rgb8 r g b => Sys2Proof.Machine.execRgb8 r g b s
  | .bgSet index color => Sys2Proof.Machine.execBgSet index color s
  | .objSet index color => Sys2Proof.Machine.execObjSet index color s
  | .bgWrite block offset bytes => Sys2Proof.Machine.execBgWrite block offset bytes s
  | .objWrite block offset bytes => Sys2Proof.Machine.execObjWrite block offset bytes s
  | .m3SetPixel x y color => Sys2Proof.Machine.execM3SetPixel x y color s
  | .m4Flip => Sys2Proof.Machine.execM4Flip s
  | .m4SetPixel x y color => Sys2Proof.Machine.execM4SetPixel x y color s
  | .setAttr index field value => Sys2Proof.Machine.execSetAttr index field value s
  | .updateOam => Sys2Proof.Machine.execUpdateOam s
  | .attr0Objy index => Sys2Proof.Machine.execAttr0Objy index s
  | .attr1Objx index => Sys2Proof.Machine.execAttr1Objx index s
  | .attr1Rot index => Sys2Proof.Machine.execAttr1Rot index s
  | .attr2Priority index => Sys2Proof.Machine.execAttr2Priority index s
  | .attr2Palette index => Sys2Proof.Machine.execAttr2Palette index s

end Sys2Proof.Machine
end

