-- ==== Sys2Proof/WellFormed.lean ====
section
/-! DEFINITION. Which terms of Instr are commands the encoding can carry. -/

namespace Sys2Proof

/-- The byte count of a tile transfer must fit the operand word `n` (30_encoding.md R56: `n` is read as `u`). Every other
operand is a whole word, and every word is encodable (30_encoding.md R55, R58). -/
def tileBytesFit (bytes : List Byte) : Bool := decide (bytes.length < 2 ^ 32)

/-- A command the encoding of 30_encoding.md can carry. -/
def Instr.wellFormed : Instr → Bool
  | .rgb5 _ _ _ => true
  | .rgb8 _ _ _ => true
  | .bgSet _ _ => true
  | .objSet _ _ => true
  | .bgWrite _ _ bytes => tileBytesFit bytes
  | .objWrite _ _ bytes => tileBytesFit bytes
  | .m3SetPixel _ _ _ => true
  | .m4Flip => true
  | .m4SetPixel _ _ _ => true
  | .setAttr _ _ _ => true
  | .updateOam => true
  | .attr0Objy _ => true
  | .attr1Objx _ => true
  | .attr1Rot _ => true
  | .attr2Priority _ => true
  | .attr2Palette _ => true

/-- `i` is well formed, as a proposition. -/
abbrev Instr.WellFormed (i : Instr) : Prop := i.wellFormed = true

end Sys2Proof
end

