-- ==== Sys2Proof/Decode.lean ====
section
/-! DEFINITION. The decoder of the command stream (30_encoding.md), total on any list of words, and the encoder after it. -/

namespace Sys2Proof

/-- The format of a command with what its operand words make (30_encoding.md R56): H0, H1, H2, H3 by their number of
operand words, HD with data words behind three of them. -/
inductive Format where
  | h0 (mk : Instr)
  | h1 (mk : Word → Instr)
  | h2 (mk : Word → Word → Instr)
  | h3 (mk : Word → Word → Word → Instr)
  | hd (mk : Word → Word → List Byte → Instr)

/-- The opcode map of 30_encoding.md R60. Every other opcode is illegal (R61). -/
def formatOf (opc : Byte) : Option Format :=
  match opc with
  | 0x01#8 => some (.h3 .rgb5)
  | 0x02#8 => some (.h3 .rgb8)
  | 0x10#8 => some (.h2 .bgSet)
  | 0x11#8 => some (.h2 .objSet)
  | 0x20#8 => some (.hd .bgWrite)
  | 0x21#8 => some (.hd .objWrite)
  | 0x30#8 => some (.h3 .m3SetPixel)
  | 0x40#8 => some (.h0 .m4Flip)
  | 0x41#8 => some (.h3 .m4SetPixel)
  | 0x50#8 => some (.h3 .setAttr)
  | 0x51#8 => some (.h0 .updateOam)
  | 0x60#8 => some (.h1 .attr0Objy)
  | 0x61#8 => some (.h1 .attr1Objx)
  | 0x62#8 => some (.h1 .attr1Rot)
  | 0x63#8 => some (.h1 .attr2Priority)
  | 0x64#8 => some (.h1 .attr2Palette)
  | _ => none

/-- `OPC`, header bits [7:0] (30_encoding.md R54). -/
def headerOpc (header : Word) : Byte := header.extractLsb' 0 8

/-- `RSV`, header bits [31:8] (30_encoding.md R54). -/
def headerRsv (header : Word) : BitVec 24 := header.extractLsb' 8 24

/-- The four bytes of a data word, byte 0 in bits [7:0] (30_encoding.md R57). -/
def wordBytes (w : Word) : List Byte :=
  [w.extractLsb' 0 8, w.extractLsb' 8 8, w.extractLsb' 16 8, w.extractLsb' 24 8]

/-- The bytes of the data words in order (30_encoding.md R57). -/
def unpackWords : List Word → List Byte
  | [] => []
  | w :: ws => wordBytes w ++ unpackWords ws

/-- How many data words carry `n` bytes: ceil(n / 4) (30_encoding.md R53). -/
def dataWords (n : Nat) : Nat := (n + 3) / 4

/-- What the decoder finds at the head of the stream. -/
inductive Decoded where
  /-- The stream ends between two commands: no command (70_reset_and_hazards.md R135). -/
  | ended
  /-- The words are no command: the cause they raise (30_encoding.md R61, R62, R63). -/
  | raises (c : Cause)
  /-- A command, and the words behind it. -/
  | command (i : Instr) (rest : List Word)
  deriving DecidableEq, Repr

/-- Reads the operand and data words of a format. A stream that ends inside a command raises TRUNCATED_COMMAND (R63). -/
def readOperands : Format → List Word → Decoded
  | .h0 i, ws => .command i ws
  | .h1 mk, a :: ws => .command (mk a) ws
  | .h2 mk, a :: b :: ws => .command (mk a b) ws
  | .h3 mk, a :: b :: c :: ws => .command (mk a b c) ws
  | .hd mk, a :: b :: n :: ws =>
    if ws.length < dataWords n.toNat then .raises .truncatedCommand
    else .command (mk a b ((unpackWords (ws.take (dataWords n.toNat))).take n.toNat)) (ws.drop (dataWords n.toNat))
  | _, _ => .raises .truncatedCommand

/-- The command at the head of the stream. The reserved bits are tested first, then the opcode, then the words that follow
(30_encoding.md R61, R62, R63; 60_exceptions.md R106). -/
def decode : List Word → Decoded
  | [] => .ended
  | header :: ws =>
    if headerRsv header ≠ 0#24 then .raises .reservedNonzero
    else
      match formatOf (headerOpc header) with
      | none => .raises .illegalOpcode
      | some f => readOperands f ws

/-- Length in words of the command that begins a list of words (30_encoding.md R58). A header that is no command stands
alone: it raises before any operand word is read (R61, R62). -/
def commandLength : List Word → Nat
  | [] => 0
  | header :: ws =>
    if headerRsv header ≠ 0#24 then 1
    else
      match formatOf (headerOpc header) with
      | none => 1
      | some (.h0 _) => 1
      | some (.h1 _) => 2
      | some (.h2 _) => 3
      | some (.h3 _) => 4
      | some (.hd _) => 4 + dataWords (ws.getD 2 0#32).toNat

/-- The header word of a command: its opcode, reserved bits 0 (30_encoding.md R60). -/
def headerOf : Instr → Word
  | .rgb5 _ _ _ => 0x01#32
  | .rgb8 _ _ _ => 0x02#32
  | .bgSet _ _ => 0x10#32
  | .objSet _ _ => 0x11#32
  | .bgWrite _ _ _ => 0x20#32
  | .objWrite _ _ _ => 0x21#32
  | .m3SetPixel _ _ _ => 0x30#32
  | .m4Flip => 0x40#32
  | .m4SetPixel _ _ _ => 0x41#32
  | .setAttr _ _ _ => 0x50#32
  | .updateOam => 0x51#32
  | .attr0Objy _ => 0x60#32
  | .attr1Objx _ => 0x61#32
  | .attr1Rot _ => 0x62#32
  | .attr2Priority _ => 0x63#32
  | .attr2Palette _ => 0x64#32

/-- The word that holds four bytes, the first in bits [7:0] (30_encoding.md R57). -/
def wordOfBytes (b0 b1 b2 b3 : Byte) : Word := b3 ++ b2 ++ b1 ++ b0

/-- The data words of a byte sequence (30_encoding.md R57), padding bytes 0 (any value would do, R57; the encoder's choice). -/
def packBytes : List Byte → List Word
  | [] => []
  | [b0] => [wordOfBytes b0 0 0 0]
  | [b0, b1] => [wordOfBytes b0 b1 0 0]
  | [b0, b1, b2] => [wordOfBytes b0 b1 b2 0]
  | b0 :: b1 :: b2 :: b3 :: bs => wordOfBytes b0 b1 b2 b3 :: packBytes bs

/-- The operand and data words of a command (30_encoding.md R53, R56). -/
def operandWords : Instr → List Word
  | .rgb5 r g b => [r, g, b]
  | .rgb8 r g b => [r, g, b]
  | .bgSet index color => [index, color]
  | .objSet index color => [index, color]
  | .bgWrite block offset bytes => block :: offset :: BitVec.ofNat 32 bytes.length :: packBytes bytes
  | .objWrite block offset bytes => block :: offset :: BitVec.ofNat 32 bytes.length :: packBytes bytes
  | .m3SetPixel x y color => [x, y, color]
  | .m4Flip => []
  | .m4SetPixel x y color => [x, y, color]
  | .setAttr index field value => [index, field, value]
  | .updateOam => []
  | .attr0Objy index => [index]
  | .attr1Objx index => [index]
  | .attr1Rot index => [index]
  | .attr2Priority index => [index]
  | .attr2Palette index => [index]

/-- The words of a command: header, operands, data (30_encoding.md R53). -/
def encode (i : Instr) : List Word := headerOf i :: operandWords i

/-- Number of words of a command (30_encoding.md R58). -/
def Instr.words : Instr → Nat
  | .rgb5 _ _ _ => 4
  | .rgb8 _ _ _ => 4
  | .bgSet _ _ => 3
  | .objSet _ _ => 3
  | .bgWrite _ _ bytes => 4 + dataWords bytes.length
  | .objWrite _ _ bytes => 4 + dataWords bytes.length
  | .m3SetPixel _ _ _ => 4
  | .m4Flip => 1
  | .m4SetPixel _ _ _ => 4
  | .setAttr _ _ _ => 4
  | .updateOam => 1
  | .attr0Objy _ => 2
  | .attr1Objx _ => 2
  | .attr1Rot _ => 2
  | .attr2Priority _ => 2
  | .attr2Palette _ => 2

/-- The first `k` 32-bit words of the number `w`, least significant first. -/
def wordsOfNat : Nat → Nat → List Word
  | 0, _ => []
  | k + 1, w => BitVec.ofNat 32 w :: wordsOfNat k (w / 2 ^ 32)

/-- The stream words of the instruction whose bits, numbered as spec/opcode_table.json numbers them, are the low `nbits` bits
of `w` and 0 above: at least four words are laid out, and as many zero data words as the command then needs; words behind
the command are cut off. -/
def tableWords (nbits w : Nat) : List Word :=
  let laid := wordsOfNat (max 4 ((nbits + 31) / 32)) (w % 2 ^ nbits)
  let needed := commandLength laid
  (laid ++ List.replicate (needed - laid.length) 0#32).take needed

/-- The instruction the decoder reads from those words. -/
def decodeTableWord (nbits w : Nat) : Option Instr :=
  match decode (tableWords nbits w) with
  | .command i _ => some i
  | .ended => none
  | .raises _ => none

end Sys2Proof
end

