-- ==== Sys2Proof/Machine/HostAgent.lean ====
section
/-! DEFINITION. The host between two commands (20_memory.md R48): its writes of console memory. Its reads change nothing
(20_memory.md R43) and are no step: `State.hostRead` is what it reads of any state between commands. -/

namespace Sys2Proof.Machine

/-- The host write to be made now: the next one, when the command index has reached the command it precedes. -/
def State.dueHostWrite (s : State) : Option HostWrite :=
  match s.hostWrites with
  | [] => none
  | w :: _ => if w.before ≤ s.pc then some w else none

/-- Memory after a host write: `width` bytes of `value`, least significant first (20_memory.md R37, R48). -/
def hostWriteMemory (w : HostWrite) (m : Memory) : Memory :=
  m.writeRun w.addr.toNat (leBytes w.width.bytes w.value.toNat)

/-- The host makes the write `w`. It changes console memory and no block state (20_memory.md R48). A misaligned access is left
outside the model (60_exceptions.md R117). -/
def performHostWrite (w : HostWrite) (s : State) : Outcome :=
  if w.addr.toNat % w.width.bytes = 0 then
    .next { s with mem := hostWriteMemory w s.mem, hostWrites := s.hostWrites.tail }
  else .refused .misalignedHostAccess

/-- What the host reads at `a` between commands, least significant byte first (20_memory.md R37, R48). A read at an address that
is no multiple of its width has no value here: a misaligned access is left undescribed (60_exceptions.md R117; log entry 4). -/
def State.hostRead (s : State) (a : Word) (w : Width) : Option Word :=
  if a.toNat % w.bytes = 0 then some (BitVec.ofNat 32 (s.mem.readLe a.toNat w.bytes)) else none

end Sys2Proof.Machine
end

