-- ==== Sys2Proof/Machine/Fetch.lean ====
section
/-! DEFINITION. How the next command is taken from the stream (30_encoding.md R53), and how a step uses up its words. -/

namespace Sys2Proof.Machine

/-- The command at the head of the stream. -/
def State.fetch (s : State) : Decoded := decode s.stream

/-- After a command that raised nothing, its words are used up; after one that raised, they stay at the head of the stream,
which so identifies the faulting command (60_exceptions.md R103). -/
def State.consume (rest : List Word) (t : State) : State :=
  match t.fault with
  | none => { t with stream := rest }
  | some _ => t

/-- A command's outcome, with its words used up. -/
def retire (rest : List Word) : Outcome → Outcome
  | .next t => .next (t.consume rest)
  | .fault r => .fault r
  | .refused r => .refused r

/-- `s` with words put in front of the stream and no host write pending, so that the next step runs the command they hold.
It stands for the host delivering a command (30_encoding.md R53; log entry 1). -/
def State.deliver (words : List Word) (s : State) : State := { s with stream := words ++ s.stream, hostWrites := [] }

end Sys2Proof.Machine
end

