-- ==== Sys2Proof/Machine/Step.lean ====
section
/-! DEFINITION. One step of the machine. -/

namespace Sys2Proof.Machine

/-- One step. A block whose FAULT holds a cause runs nothing (10_state.md R30). Else a host write that is due is made
(20_memory.md R48). Else the command at the head of the stream runs: a header that is no command, or a command cut off, raises
its cause (30_encoding.md R61 to R63), and a stream that has ended between commands ends the run (70_reset_and_hazards.md
R135). -/
def step (s : State) : Host.Outcome State Fault Refusal :=
  match s.fault with
  | some c => .fault (.stopped c)
  | none =>
    match s.dueHostWrite with
    | some w => performHostWrite w s
    | none =>
      match s.fetch with
      | .ended => .fault .endOfRun
      | .raises c => raiseUndefined c s
      | .command i rest => retire rest (exec i s)

/-- `s` with the instruction of an opcode-table word put where step takes its next command from. -/
def State.withFetchWord (s : State) (nbits w : Nat) : State := s.deliver (tableWords nbits w)

end Sys2Proof.Machine
end

