-- ==== Sys2Proof/Machine/Assembler.lean ====
section
/-! DEFINITION. The assembly syntax of 30_encoding.md R65: from text to command words. -/

namespace Sys2Proof.Machine

/-- The mnemonics with their opcodes (30_encoding.md R60). -/
def mnemonics : List (String × Byte) :=
  [("RGB5", 0x01#8), ("RGB8", 0x02#8), ("BG_SET", 0x10#8), ("OBJ_SET", 0x11#8), ("BG_WRITE", 0x20#8),
   ("OBJ_WRITE", 0x21#8), ("M3_SET_PIXEL", 0x30#8), ("M4_FLIP", 0x40#8)] ++
  [("M4_SET_PIXEL", 0x41#8), ("SET_ATTR", 0x50#8), ("UPDATE_OAM", 0x51#8), ("ATTR0_OBJY", 0x60#8),
   ("ATTR1_OBJX", 0x61#8), ("ATTR1_ROT", 0x62#8), ("ATTR2_PRIORITY", 0x63#8), ("ATTR2_PALETTE", 0x64#8)]

/-- A finished token in front of more tokens; an empty one is none. -/
def addToken (token : List Char) (more : List (List Char)) : List (List Char) :=
  if token.isEmpty then more else token :: more

/-- The tokens of a line: names and numbers, and commas and brackets alone. A semicolon starts a comment. -/
def tokensFrom (token : List Char) : List Char → List (List Char)
  | [] => addToken token []
  | c :: cs =>
    if c = ';' then addToken token []
    else if c = ' ' || c = '\t' || c = '\r' then addToken token (tokensFrom [] cs)
    else if c = ',' || c = '[' || c = ']' then addToken token ([c] :: tokensFrom [] cs)
    else tokensFrom (token ++ [c]) cs

/-- The value of a digit, hexadecimal ones in either case. -/
def digitValue (c : Char) : Option Nat :=
  if '0' ≤ c && c ≤ '9' then some (c.toNat - 48)
  else if 'a' ≤ c && c ≤ 'f' then some (c.toNat - 87)
  else if 'A' ≤ c && c ≤ 'F' then some (c.toNat - 55)
  else none

/-- The number whose digits follow `acc`. -/
def digitsFrom (base acc : Nat) : List Char → Option Nat
  | [] => some acc
  | c :: cs =>
    match digitValue c with
    | none => none
    | some d => if d < base then digitsFrom base (acc * base + d) cs else none

/-- A decimal or 0x hexadecimal number without sign. -/
def parseNat : List Char → Option Nat
  | [] => none
  | '0' :: 'x' :: c :: cs => digitsFrom 16 0 (c :: cs)
  | c :: cs => digitsFrom 10 0 (c :: cs)

/-- An integer, with a minus sign when negative. -/
def parseInt : List Char → Option Int
  | '-' :: cs => (parseNat cs).map fun n => -(n : Int)
  | cs => (parseNat cs).map fun n => (n : Int)

/-- An operand: the two's-complement word of an integer that fits 32 bits, signed or unsigned. Any other is no operand (log
entry 9). -/
def parseWord (token : List Char) : Option Word :=
  match parseInt token with
  | none => none
  | some v => if -(2 ^ 31 : Int) ≤ v && v < (2 ^ 32 : Int) then some (BitVec.ofInt 32 v) else none

/-- A byte of a byte list: an integer in [0, 256). -/
def parseByte (token : List Char) : Option Byte :=
  match parseNat token with
  | none => none
  | some v => if v < 256 then some (BitVec.ofNat 8 v) else none

/-- The bytes behind an opening bracket, up to the closing one, which ends the line. -/
def parseBytes : List (List Char) → Option (List Byte)
  | [b, [']']] => (parseByte b).map fun v => [v]
  | b :: [','] :: more =>
    match parseByte b, parseBytes more with
    | some v, some vs => some (v :: vs)
    | _, _ => none
  | _ => none

/-- A byte list without its opening bracket; it may be empty. -/
def parseByteList : List (List Char) → Option (List Byte)
  | [[']']] => some []
  | more => parseBytes more

/-- The command of a format and the tokens of its operands (30_encoding.md R56, R65). -/
def parseOperands : Format → List (List Char) → Option Instr
  | .h0 i, [] => some i
  | .h1 mk, [a] => (parseWord a).map mk
  | .h2 mk, [a, [','], b] =>
    match parseWord a, parseWord b with
    | some va, some vb => some (mk va vb)
    | _, _ => none
  | .h3 mk, [a, [','], b, [','], c] =>
    match parseWord a, parseWord b, parseWord c with
    | some va, some vb, some vc => some (mk va vb vc)
    | _, _, _ => none
  | .hd mk, a :: [','] :: b :: [','] :: ['['] :: bytes =>
    match parseWord a, parseWord b, parseByteList bytes with
    | some va, some vb, some vs => some (mk va vb vs)
    | _, _, _ => none
  | _, _ => none

/-- The opcode of a mnemonic. -/
def opcodeOf (name : List Char) : Option Byte :=
  (mnemonics.find? fun row => row.1.toList = name).map fun row => row.2

/-- The words of a command the encoding can carry. DESIGN CHOICE, safe: R65 does not say what becomes of a byte list of 2^32 bytes
or more, which no operand word `n` can count; here such a line has no words (log entry 9). -/
def commandWords (i : Instr) : Option (List Word) := if i.wellFormed then some (encode i) else none

/-- The words of one line: those of its command, none for a line without one; no answer for a line that is not of the
syntax. -/
def assembleLine (line : List Char) : Option (List Word) :=
  match tokensFrom [] line with
  | [] => some []
  | name :: operands =>
    match opcodeOf name with
    | none => none
    | some opc =>
      match formatOf opc with
      | none => none
      | some f => (parseOperands f operands).bind commandWords

/-- The lines of a text. -/
def splitLines (line : List Char) : List Char → List (List Char)
  | [] => [line]
  | '\n' :: cs => line :: splitLines [] cs
  | c :: cs => splitLines (line ++ [c]) cs

/-- The words of a text, one command per line. -/
def assembleLines : List (List Char) → Option (List Word)
  | [] => some []
  | l :: ls =>
    match assembleLine l, assembleLines ls with
    | some ws, some vs => some (ws ++ vs)
    | _, _ => none

/-- The command stream of a text in the syntax of 30_encoding.md R65. -/
def assemble (text : String) : Option (List Word) := assembleLines (splitLines [] text.toList)

end Sys2Proof.Machine
end

