-- ==== Sys2Proof/Machine/Bus.lean ====
section
/-! DEFINITION. The halfword accesses of a command, in order (20_memory.md R39 to R42; 41_tile_transfer.md R77), and what the
display can see while they are made (20_memory.md R49). The meanings in exec give a command's whole effect; Laws/Bus.lean
ties the two. -/

namespace Sys2Proof.Machine

/-- One halfword access of the block. A read-modify-write is one read and one write of the same halfword
(20_memory.md R40, R41). -/
inductive BusOp where
  /-- MemRead(a, 2). -/
  | read (a : Nat)
  /-- MemWrite(a, 2, v). -/
  | write (a : Nat) (v : Half)
  /-- Read v0, then write (v0 & keep) | v. -/
  | merge (a : Nat) (keep v : Half)
  /-- Read v0, then write v0 ^ mask. -/
  | toggle (a : Nat) (mask : Half)
  deriving DecidableEq, Repr

/-- The halfword address of an access. -/
def BusOp.addr : BusOp → Nat
  | .read a => a
  | .write a _ => a
  | .merge a _ _ => a
  | .toggle a _ => a

/-- How many halfword reads the access is. -/
def BusOp.reads : BusOp → Nat
  | .read _ => 1
  | .write _ _ => 0
  | .merge _ _ _ => 1
  | .toggle _ _ => 1

/-- How many halfword writes the access is. -/
def BusOp.writes : BusOp → Nat
  | .read _ => 0
  | .write _ _ => 1
  | .merge _ _ _ => 1
  | .toggle _ _ => 1

/-- Memory after one access. -/
def BusOp.apply (m : Memory) : BusOp → Memory
  | .read _ => m
  | .write a v => m.writeHalf a v
  | .merge a keep v => m.writeHalf a ((m.readHalf a &&& keep) ||| v)
  | .toggle a mask => m.writeHalf a (m.readHalf a ^^^ mask)

/-- Memory after the accesses of a plan, made in order (20_memory.md R44). -/
def runPlan (m : Memory) (plan : List BusOp) : Memory := plan.foldl BusOp.apply m

/-- The accesses of a plan that read. -/
def planReads (plan : List BusOp) : Nat := (plan.map BusOp.reads).sum

/-- The accesses of a plan that write. -/
def planWrites (plan : List BusOp) : Nat := (plan.map BusOp.writes).sum

/-- The access TileCopy makes to the halfword at `h`: a plain write when both its bytes are covered, else a
read-modify-write that keeps the other byte (41_tile_transfer.md R77). -/
def tileHalf (d : Nat) (bytes : List Byte) (h : Nat) : BusOp :=
  let loIn := decide (d ≤ h) && decide (h < d + bytes.length)
  let hiIn := decide (d ≤ h + 1) && decide (h + 1 < d + bytes.length)
  if loIn && hiIn then .write h (bytes.getD (h + 1 - d) 0#8 ++ bytes.getD (h - d) 0#8)
  else if loIn then .merge h 0xFF00#16 (0#8 ++ bytes.getD (h - d) 0#8)
  else if hiIn then .merge h 0x00FF#16 (bytes.getD (h + 1 - d) 0#8 ++ 0#8)
  else .merge h 0xFFFF#16 0x0000#16

/-- TileCopy(d, bytes, n): the halfwords from `d - (d mod 2)` upward while below `d + n` (41_tile_transfer.md R77); none when
n = 0 (41_tile_transfer.md R75, 20_memory.md R41; log entry 8). -/
def tilePlan (d : Nat) (bytes : List Byte) : List BusOp :=
  if bytes.isEmpty then []
  else (List.range ((d % 2 + bytes.length + 1) / 2)).map fun j => tileHalf d bytes (d - d % 2 + 2 * j)

/-- The 512 halfword writes of UPDATE_OAM, ascending (43_object_attributes.md R89). -/
def commitPlan (s : State) : List BusOp :=
  (List.range (Config.oamBytes / 2)).map fun j => .write (Config.oamBase + 2 * j) (s.shRead (2 * j))

/-- The accesses of a tile command: none when it raises (60_exceptions.md R105). -/
def tileCommandPlan (base size : Nat) (block offset : Word) (bytes : List Byte) : List BusOp :=
  if isNegative block || isNegative offset || tileOverruns size block offset bytes.length then []
  else tilePlan (tileDest base block offset) bytes

/-- The accesses of a palette command. -/
def palettePlan (base : Nat) (index color : Word) : List BusOp :=
  if inRange index Config.palSlots then [.write (paletteSlot base (operandNat index)) (low16 color)] else []

/-- The one read of a field codec (43_object_attributes.md R90). -/
def codecPlan (f : Nat) (index : Word) : List BusOp :=
  if inRange index Config.oamSlots then [.read (Config.oamBase + fieldOffset (operandNat index) f)] else []

/-- The halfword accesses a command makes to console memory, in order (20_memory.md R41). A command that raises makes none
(60_exceptions.md R105). -/
def busPlan (i : Instr) (s : State) : List BusOp :=
  match i with
  | .rgb5 _ _ _ => []
  | .rgb8 _ _ _ => []
  | .bgSet index color => palettePlan Config.palBgBase index color
  | .objSet index color => palettePlan Config.palObjBase index color
  | .bgWrite block offset bytes => tileCommandPlan Config.bgTileBase Config.bgTileSize block offset bytes
  | .objWrite block offset bytes => tileCommandPlan Config.objTileBase Config.objTileSize block offset bytes
  | .m3SetPixel x y color =>
    if onScreen x y then [.write (m3Cell (operandNat x) (operandNat y)) (low16 color)] else []
  | .m4Flip => [.toggle Config.dispcntAddr pageMask]
  | .m4SetPixel x y color =>
    if onScreen x y && inRange color 256 then
      [.merge (m4Cell s.dt (operandNat x) (operandNat y)) (m4Keep (operandNat x)) (m4Lane (operandNat x) (operandNat color))]
    else []
  | .setAttr _ _ _ => []
  | .updateOam => commitPlan s
  | .attr0Objy index => codecPlan 0 index
  | .attr1Objx index => codecPlan 1 index
  | .attr1Rot index => codecPlan 1 index
  | .attr2Priority index => codecPlan 2 index
  | .attr2Palette index => codecPlan 2 index

/-- Console memory when command `i`, begun in state `s`, has made its first `k` accesses: what the display can find
(20_memory.md R49). At k = 0 it is the memory before the command. Between the read and the write of a read-modify-write it is
the memory before that access. -/
def displayMemory (i : Instr) (s : State) (k : Nat) : Memory := runPlan s.mem ((busPlan i s).take k)

/-- A display read of the halfword at `a` at that moment (20_memory.md R42, R49). -/
def displayView (i : Instr) (s : State) (k a : Nat) : Half := (displayMemory i s k).readHalf a

end Sys2Proof.Machine
end

