-- ==== Sys2Proof/Machine/Flags.lean ====
section
/-! DEFINITION. The block has no flags and no condition codes, and no command computes one (10_state.md R20). What it has are
conditions derived from the state, which no field stores. -/

namespace Sys2Proof.Machine

/-- Committed: SH is byte-equal to OAM (10_state.md R27). -/
abbrev State.Committed (s : State) : Prop := ∀ k, k < Config.oamBytes → s.shByte k = s.oamByte k

/-- DT holds one of its two legal values (10_state.md R21). -/
abbrev State.DrawTargetLegal (s : State) : Prop := s.dt = Config.m4Page0 ∨ s.dt = Config.m4Page1

/-- `DISPCNT[PAGE_BIT]`: false when page 0 is displayed, true when page 1 is (10_state.md R22). -/
def State.pageBit (s : State) : Bool := s.dispcnt.getLsbD Config.pageBit

/-- The draw target is the hidden page: DT = M4_PAGE1 exactly when the page bit is 0 (10_state.md R32). -/
abbrev State.Coupled (s : State) : Prop := s.dt = Config.m4Page1 ↔ s.pageBit = false

end Sys2Proof.Machine
end

