-- ==== Sys2Proof/Safety.lean ====
section
/-! DEFINITION. What counts as a sound state and a safe run, and the frames, in the terms statements use. -/

namespace Sys2Proof.Machine

/-- The states the machine keeps to: memory in its canonical form, DT one of the two pages (10_state.md R21). -/
abbrev State.Sound (s : State) : Prop := s.mem.wf = true ∧ s.DrawTargetLegal

/-- The run has ended normally: the stream has ended between two commands, FAULT is none (70_reset_and_hazards.md R135). -/
abbrev State.EndedNormally (s : State) : Prop := s.fault = none ∧ s.stream = [] ∧ s.dueHostWrite = none

/-- The block is ready for the command at the head of its stream: it has not faulted and no host write is due. -/
abbrev State.Ready (s : State) : Prop := s.fault = none ∧ s.dueHostWrite = none

/-- The frame of a command that writes console memory alone: `t` is `s` with other memory and pc advanced; SH, DT, FAULT, RESP
and the model's own fields are as before. -/
abbrev OnlyMemory (s t : State) : Prop := t = { s with mem := t.mem, pc := s.pc + 1 }

/-- Every byte of console memory outside the `n` bytes at `a` reads in `t` as it did in `s`. -/
abbrev MemorySameOutside (a n : Nat) (s t : State) : Prop := ∀ x, x < a ∨ a + n ≤ x → t.mem.read x = s.mem.read x

/-- Every byte of console memory reads in `t` as it did in `s`. -/
abbrev MemorySame (s t : State) : Prop := ∀ x, t.mem.read x = s.mem.read x

/-- The commands that return a response word (30_encoding.md R56, 10_state.md R31). -/
def responds : Instr → Bool
  | .rgb5 _ _ _ => true
  | .rgb8 _ _ _ => true
  | .bgSet _ _ => false
  | .objSet _ _ => false
  | .bgWrite _ _ _ => false
  | .objWrite _ _ _ => false
  | .m3SetPixel _ _ _ => false
  | .m4Flip => false
  | .m4SetPixel _ _ _ => false
  | .setAttr _ _ _ => false
  | .updateOam => false
  | .attr0Objy _ => true
  | .attr1Objx _ => true
  | .attr1Rot _ => true
  | .attr2Priority _ => true
  | .attr2Palette _ => true

/-- The causes a command can raise once it has been read (60_exceptions.md R102). -/
def causesOf : Instr → List Cause
  | .rgb5 _ _ _ => []
  | .rgb8 _ _ _ => []
  | .bgSet _ _ => [.palIndexRange]
  | .objSet _ _ => [.palIndexRange]
  | .bgWrite _ _ _ => [.tileNegative, .tileOverrun]
  | .objWrite _ _ _ => [.tileNegative, .tileOverrun]
  | .m3SetPixel _ _ _ => [.m3CoordRange]
  | .m4Flip => []
  | .m4SetPixel _ _ _ => [.m4CoordRange, .m4ColorRange]
  | .setAttr _ _ _ => [.oamIndexRange, .attrFieldRange]
  | .updateOam => []
  | .attr0Objy _ => [.oamIndexRange]
  | .attr1Objx _ => [.oamIndexRange]
  | .attr1Rot _ => [.oamIndexRange]
  | .attr2Priority _ => [.oamIndexRange]
  | .attr2Palette _ => [.oamIndexRange]

/-- The region of console memory a command accesses, as its first byte and its size; size 0 where it accesses none
(20_memory.md R35, R41). -/
def regionOf (i : Instr) (s : State) : Nat × Nat :=
  match i with
  | .rgb5 _ _ _ => (0, 0)
  | .rgb8 _ _ _ => (0, 0)
  | .bgSet _ _ => (0x05000000, 512)
  | .objSet _ _ => (0x05000200, 512)
  | .bgWrite _ _ _ => (0x06000000, 0x10000)
  | .objWrite _ _ _ => (0x06010000, 0x8000)
  | .m3SetPixel _ _ _ => (0x06000000, 76800)
  | .m4Flip => (0x04000000, 2)
  | .m4SetPixel _ _ _ => (s.dt.toNat, 38400)
  | .setAttr _ _ _ => (0, 0)
  | .updateOam => (0x07000000, 1024)
  | .attr0Objy _ => (0x07000000, 1024)
  | .attr1Objx _ => (0x07000000, 1024)
  | .attr1Rot _ => (0x07000000, 1024)
  | .attr2Priority _ => (0x07000000, 1024)
  | .attr2Palette _ => (0x07000000, 1024)

/-- The five field codecs (43_object_attributes.md R90). -/
def isCodec : Instr → Bool
  | .rgb5 _ _ _ => false
  | .rgb8 _ _ _ => false
  | .bgSet _ _ => false
  | .objSet _ _ => false
  | .bgWrite _ _ _ => false
  | .objWrite _ _ _ => false
  | .m3SetPixel _ _ _ => false
  | .m4Flip => false
  | .m4SetPixel _ _ _ => false
  | .setAttr _ _ _ => false
  | .updateOam => false
  | .attr0Objy _ => true
  | .attr1Objx _ => true
  | .attr1Rot _ => true
  | .attr2Priority _ => true
  | .attr2Palette _ => true

/-- The mnemonics with the header words of 30_encoding.md R60, written out from its table. -/
abbrev mnemonicHeaders : List (String × Word) :=
  [("RGB5", 0x01#32), ("RGB8", 0x02#32), ("BG_SET", 0x10#32), ("OBJ_SET", 0x11#32), ("BG_WRITE", 0x20#32),
   ("OBJ_WRITE", 0x21#32), ("M3_SET_PIXEL", 0x30#32), ("M4_FLIP", 0x40#32), ("M4_SET_PIXEL", 0x41#32), ("SET_ATTR", 0x50#32),
   ("UPDATE_OAM", 0x51#32), ("ATTR0_OBJY", 0x60#32), ("ATTR1_OBJX", 0x61#32), ("ATTR1_ROT", 0x62#32),
   ("ATTR2_PRIORITY", 0x63#32), ("ATTR2_PALETTE", 0x64#32)]

/-- What a run that has ended normally leaves to observe: console memory, SH, DT and RESP (70_reset_and_hazards.md R135). -/
structure Observation where
  mem : Memory
  sh : Vector Byte 1024
  dt : Word
  resp : List Word
  deriving DecidableEq, Repr

/-- The observation of a state, if its run has ended normally (70_reset_and_hazards.md R135). -/
def State.observe (s : State) : Option Observation :=
  if s.EndedNormally then some { mem := s.mem, sh := s.sh, dt := s.dt, resp := s.resp } else none

end Sys2Proof.Machine
end

