-- ==== Sys2Proof/Certificates/Slice0/Obligations.lean ====
section
/-! DEFINITION. The statements for the provers, each from the numbered rules of spec/. -/

open Sys2Proof Sys2Proof.Machine

/-! Encoding (30_encoding.md) -/

/-- A few words written out from 30_encoding.md R54, R56 and R65 decode to the commands they stand for. -/
def Obligations.SpecWordsDecode : Prop :=
  decode [0x00000001#32, 0x0000001F#32, 0x00000000#32, 0x00000000#32] = .command (.rgb5 31#32 0#32 0#32) [] ∧
  decode [0x00000010#32, 0x00000000#32, 0x0000001F#32] = .command (.bgSet 0#32 0x1F#32) [] ∧
  decode [0x00000020#32, 0x00000002#32, 0x00000005#32, 0x00000001#32, 0x000000AA#32]
    = .command (.bgWrite 2#32 5#32 [0xAA#8]) [] ∧
  decode [0x00000041#32, 0x000000EF#32, 0x0000009F#32, 0x00000002#32] = .command (.m4SetPixel 239#32 159#32 2#32) [] ∧
  decode [0x00000051#32, 0x00000060#32, 0x00000007#32] = .command .updateOam [0x60#32, 7#32]

/-- 30_encoding.md R56, R60: which words make each of the 14 commands that carry no data words, whatever their operands. -/
def Obligations.OpcodeMapReadsOperands : Prop :=
  ∀ (a b c : Word) (ws : List Word),
    decode (0x01#32 :: a :: b :: c :: ws) = .command (.rgb5 a b c) ws ∧
    decode (0x02#32 :: a :: b :: c :: ws) = .command (.rgb8 a b c) ws ∧
    decode (0x10#32 :: a :: b :: ws) = .command (.bgSet a b) ws ∧
    decode (0x11#32 :: a :: b :: ws) = .command (.objSet a b) ws ∧
    decode (0x30#32 :: a :: b :: c :: ws) = .command (.m3SetPixel a b c) ws ∧
    decode (0x40#32 :: ws) = .command .m4Flip ws ∧
    decode (0x41#32 :: a :: b :: c :: ws) = .command (.m4SetPixel a b c) ws ∧
    decode (0x50#32 :: a :: b :: c :: ws) = .command (.setAttr a b c) ws ∧
    decode (0x51#32 :: ws) = .command .updateOam ws ∧
    decode (0x60#32 :: a :: ws) = .command (.attr0Objy a) ws ∧
    decode (0x61#32 :: a :: ws) = .command (.attr1Objx a) ws ∧
    decode (0x62#32 :: a :: ws) = .command (.attr1Rot a) ws ∧
    decode (0x63#32 :: a :: ws) = .command (.attr2Priority a) ws ∧
    decode (0x64#32 :: a :: ws) = .command (.attr2Palette a) ws

/-- 30_encoding.md R57: byte j of a tile command is bits [8*(j mod 4)+7 : 8*(j mod 4)] of data word j div 4, and nothing else of
the data words matters: the padding is ignored. -/
def Obligations.TileBytesComeFromDataWords : Prop :=
  ∀ (block offset n : Word) (data rest : List Word), data.length = (n.toNat + 3) / 4 →
    ∃ bytes : List Byte,
      decode (0x20#32 :: block :: offset :: n :: (data ++ rest)) = .command (.bgWrite block offset bytes) rest ∧
      decode (0x21#32 :: block :: offset :: n :: (data ++ rest)) = .command (.objWrite block offset bytes) rest ∧
      bytes.length = n.toNat ∧
      ∀ j, j < n.toNat → bytes[j]? = (data[j / 4]?).map fun w => w.extractLsb' (8 * (j % 4)) 8

/-- 30_encoding.md R58: the length in words of every command, known from its header, and from op[2] for a tile command. -/
def Obligations.CommandLengths : Prop :=
  (∀ (i : Instr) (ws : List Word), (∀ b o bs, i ≠ .bgWrite b o bs) → (∀ b o bs, i ≠ .objWrite b o bs) →
    commandLength (headerOf i :: ws) = i.words) ∧
  (∀ (a b n : Word) (ws : List Word),
    commandLength (0x20#32 :: a :: b :: n :: ws) = 4 + (n.toNat + 3) / 4 ∧
    commandLength (0x21#32 :: a :: b :: n :: ws) = 4 + (n.toNat + 3) / 4) ∧
  Instr.words .m4Flip = 1 ∧ Instr.words .updateOam = 1 ∧
  (∀ a b c : Word, Instr.words (.attr0Objy a) = 2 ∧ Instr.words (.attr1Objx a) = 2 ∧ Instr.words (.attr1Rot a) = 2 ∧
    Instr.words (.attr2Priority a) = 2 ∧ Instr.words (.attr2Palette a) = 2 ∧
    Instr.words (.bgSet a b) = 3 ∧ Instr.words (.objSet a b) = 3 ∧
    Instr.words (.rgb5 a b c) = 4 ∧ Instr.words (.rgb8 a b c) = 4 ∧ Instr.words (.m3SetPixel a b c) = 4 ∧
    Instr.words (.m4SetPixel a b c) = 4 ∧ Instr.words (.setAttr a b c) = 4)

/-- Decode and encode agree for every well-formed command and whatever follows it in the stream (30_encoding.md R53, R56, R57,
R60). -/
def Obligations.DecodeOfEncodeIsTheCommand : Prop :=
  ∀ (i : Instr) (rest : List Word), i.WellFormed → decode (encode i ++ rest) = .command i rest

/-- The other direction: a decoded command is well formed and its words are exactly its encoding, but for the padding bytes of
a tile command's last data word (30_encoding.md R53, R57, R58). -/
def Obligations.DecodedWordsAreTheEncoding : Prop :=
  ∀ (ws rest : List Word) (i : Instr), decode ws = .command i rest →
    i.WellFormed ∧
    ∃ used : List Word, ws = used ++ rest ∧ used.length = i.words ∧ commandLength ws = i.words ∧
      used.take 4 = (encode i).take 4 ∧
      (∀ (b o : Word) (bytes : List Byte), i = .bgWrite b o bytes ∨ i = .objWrite b o bytes →
        bytes = (unpackWords (used.drop 4)).take bytes.length)

/-- 30_encoding.md R61: an opcode outside the map raises ILLEGAL_OPCODE before any operand word is read. -/
def Obligations.IllegalOpcodesRaise : Prop :=
  ∀ (s : State) (h : Word) (ws : List Word), s.Ready → s.stream = h :: ws →
    (h.toNat = 0x00 ∨ (0x03 ≤ h.toNat ∧ h.toNat ≤ 0x0F) ∨ (0x12 ≤ h.toNat ∧ h.toNat ≤ 0x1F) ∨
      (0x22 ≤ h.toNat ∧ h.toNat ≤ 0x2F) ∨ (0x31 ≤ h.toNat ∧ h.toNat ≤ 0x3F) ∨ (0x42 ≤ h.toNat ∧ h.toNat ≤ 0x4F) ∨
      (0x52 ≤ h.toNat ∧ h.toNat ≤ 0x5F) ∨ (0x65 ≤ h.toNat ∧ h.toNat ≤ 0xFF)) →
    step s = .next { s with fault := some .illegalOpcode }

/-- 30_encoding.md R62: a header whose reserved bits are not 0 raises RESERVED_NONZERO, whatever its opcode. -/
def Obligations.ReservedHeaderBitsRaise : Prop :=
  ∀ (s : State) (h : Word) (ws : List Word), s.Ready → s.stream = h :: ws → 0x100 ≤ h.toNat →
    step s = .next { s with fault := some .reservedNonzero }

/-- 30_encoding.md R63: a stream that ends before a command's last operand or data word raises TRUNCATED_COMMAND, with no effect
of the command. -/
def Obligations.TruncatedCommandsRaise : Prop :=
  ∀ (s : State) (i : Instr) (ws : List Word), s.Ready → s.stream = headerOf i :: ws →
    s.stream.length < commandLength s.stream → step s = .next { s with fault := some .truncatedCommand }

/-- Every stop of a step and when it comes: the block has faulted, the run has ended normally (70_reset_and_hazards.md R135,
30_encoding.md R63), DT holds a value no command writes (log entry 11), a host write is misaligned (log entry 4). The names of
the stops are the model's (log entry 6). -/
def Obligations.EveryStopHasItsReason : Prop :=
  ∀ s : State,
    (∀ c, step s = .fault (.stopped c) ↔ s.fault = some c) ∧
    (step s = .fault .endOfRun ↔ s.EndedNormally) ∧
    (step s = .fault .outsideAddressSpace → ¬ s.DrawTargetLegal) ∧
    (∀ r, step s = .refused r → r = .misalignedHostAccess ∧
      ∃ w, s.dueHostWrite = some w ∧ w.addr.toNat % w.width.bytes ≠ 0) ∧
    (s.fault = none ∧ s.stream = [] ∧ s.dueHostWrite = none →
      s.observe = some { mem := s.mem, sh := s.sh, dt := s.dt, resp := s.resp })

/-- A step runs the decoded command: when no fault is recorded and no host write is due, a step is exec of the command at the
head of the stream, and then uses up the command's words unless it raised (10_state.md R19, 60_exceptions.md R103). That the
words stand in a field of the state, that a completed command's are taken off it and a raising one's are left, is the model's
choice (log entry 1). No command is refused. -/
def Obligations.StepRunsDecodedCommand : Prop :=
  ∀ (s : State) (i : Instr) (rest : List Word), s.Ready → decode s.stream = .command i rest →
    (∀ t, exec i s = .next t → step s = .next (if t.fault = none then { t with stream := rest } else t)) ∧
    (∀ r, exec i s = .fault r → step s = .fault r) ∧
    (∀ r, exec i s ≠ .refused r)

/-- 30_encoding.md R65: the assembler on the rule's three examples, with comments, hexadecimal and negative operands, and a
semicolon and what follows it change no line's words. -/
def Obligations.AssemblerExamplesAndComments : Prop :=
  assemble "RGB5 31, 0, 0" = some [0x00000001#32, 0x0000001F#32, 0x00000000#32, 0x00000000#32] ∧
  assemble "BG_WRITE 2, 5, [0xAA]" = some [0x00000020#32, 0x00000002#32, 0x00000005#32, 0x00000001#32, 0x000000AA#32] ∧
  assemble "UPDATE_OAM ; commit" = some [0x00000051#32] ∧
  assemble "BG_SET -1, 0x1" = some [0x00000010#32, 0xFFFFFFFF#32, 0x00000001#32] ∧
  ∀ line comment : List Char, ';' ∉ line → assembleLine (line ++ ';' :: comment) = assembleLine line

/-- 30_encoding.md R60, R65, R66: an assembled line is no command or exactly one, its words are that command's encoding, the
line's first token is a mnemonic of R60, and the first word is that mnemonic's header; a line that begins with a mnemonic
alone or before a blank has that mnemonic's header. -/
def Obligations.AssembledLineIsOneCommand : Prop :=
  (∀ (line : List Char) (ws : List Word), assembleLine line = some ws →
    ws = [] ∨ ∃ (i : Instr) (name : String), ws = encode i ∧ i.WellFormed ∧
      (tokensFrom [] line).head? = some name.toList ∧ (name, headerOf i) ∈ mnemonicHeaders) ∧
  (∀ (name : String) (header : Word) (rest : List Char) (ws : List Word), (name, header) ∈ mnemonicHeaders →
    (assembleLine name.toList = some ws → ws.head? = some header) ∧
    (assembleLine (name.toList ++ ' ' :: rest) = some ws → ws.head? = some header))

/-! Colour codec and palettes (40_color_palette.md) -/

/-- 40_color_palette.md R67: RGB5 responds the packed colour when its channels are in range, some word when not, and raises
nothing. -/
def Obligations.Rgb5RespondsPackedColor : Prop :=
  ∀ (r g b : Word) (s : State),
    encode (.rgb5 r g b) = [0x01#32, r, g, b] ∧
    (((0 ≤ r.toInt ∧ r.toInt < 32) ∧ (0 ≤ g.toInt ∧ g.toInt < 32) ∧ (0 ≤ b.toInt ∧ b.toInt < 32)) →
      exec (.rgb5 r g b) s = .next { s with
        resp := s.resp ++ [BitVec.ofNat 32 ((b.toNat <<< 10) ||| (g.toNat <<< 5) ||| r.toNat)], pc := s.pc + 1 }) ∧
    (¬ ((0 ≤ r.toInt ∧ r.toInt < 32) ∧ (0 ≤ g.toInt ∧ g.toInt < 32) ∧ (0 ≤ b.toInt ∧ b.toInt < 32)) →
      ∃ (w : Word) (d : Nat), exec (.rgb5 r g b) s = .next { s with resp := s.resp ++ [w], draws := d, pc := s.pc + 1 })

/-- 40_color_palette.md R68: RGB8 packs the upper five bits of each 8-bit channel, as RGB5 does of the shifted channels. -/
def Obligations.Rgb8RespondsPackedColor : Prop :=
  ∀ (r g b : Word) (s : State),
    encode (.rgb8 r g b) = [0x02#32, r, g, b] ∧
    (((0 ≤ r.toInt ∧ r.toInt < 256) ∧ (0 ≤ g.toInt ∧ g.toInt < 256) ∧ (0 ≤ b.toInt ∧ b.toInt < 256)) →
      exec (.rgb8 r g b) s = .next { s with
        resp := s.resp ++
          [BitVec.ofNat 32 (((b.toNat >>> 3) <<< 10) ||| ((g.toNat >>> 3) <<< 5) ||| (r.toNat >>> 3))],
        pc := s.pc + 1 } ∧
      exec (.rgb8 r g b) s = exec (.rgb5 (r >>> 3) (g >>> 3) (b >>> 3)) s) ∧
    (¬ ((0 ≤ r.toInt ∧ r.toInt < 256) ∧ (0 ≤ g.toInt ∧ g.toInt < 256) ∧ (0 ≤ b.toInt ∧ b.toInt < 256)) →
      ∃ (w : Word) (d : Nat), exec (.rgb8 r g b) s = .next { s with resp := s.resp ++ [w], draws := d, pc := s.pc + 1 })

/-- 40_color_palette.md R71: the lanes of a PackedColor: each holds its own channel, and every bit above bit 14 is 0. -/
def Obligations.PackedColorLanes : Prop :=
  ∀ (r g b : Word) (s t : State),
    ((r.toNat < 32 ∧ g.toNat < 32 ∧ b.toNat < 32 → exec (.rgb5 r g b) s = .next t →
      ∃ c : Word, t.resp = s.resp ++ [c] ∧ c.extractLsb' 0 5 = r.setWidth 5 ∧ c.extractLsb' 5 5 = g.setWidth 5 ∧
        c.extractLsb' 10 5 = b.setWidth 5 ∧ c.extractLsb' 15 17 = 0#17)) ∧
    (r.toNat < 256 ∧ g.toNat < 256 ∧ b.toNat < 256 → exec (.rgb8 r g b) s = .next t →
      ∃ c : Word, t.resp = s.resp ++ [c] ∧ c.extractLsb' 0 5 = r.extractLsb' 3 5 ∧ c.extractLsb' 5 5 = g.extractLsb' 3 5 ∧
        c.extractLsb' 10 5 = b.extractLsb' 3 5 ∧ c.extractLsb' 15 17 = 0#17)

/-- 40_color_palette.md R69: BG_SET writes its slot and nothing else, or raises PAL_INDEX_RANGE. -/
def Obligations.BgSetWritesItsSlot : Prop :=
  ∀ (index color : Word) (s : State),
    encode (.bgSet index color) = [0x10#32, index, color] ∧
    (0 ≤ index.toInt ∧ index.toInt < 256 → s.mem.wf = true →
      ∃ t, exec (.bgSet index color) s = .next t ∧ OnlyMemory s t ∧
        t.mem.readHalf (0x05000000 + 2 * index.toNat) = color.setWidth 16 ∧
        MemorySameOutside (0x05000000 + 2 * index.toNat) 2 s t) ∧
    (¬ (0 ≤ index.toInt ∧ index.toInt < 256) →
      exec (.bgSet index color) s = .next { s with fault := some .palIndexRange })

/-- 40_color_palette.md R70: OBJ_SET writes its slot and nothing else, or raises PAL_INDEX_RANGE. -/
def Obligations.ObjSetWritesItsSlot : Prop :=
  ∀ (index color : Word) (s : State),
    encode (.objSet index color) = [0x11#32, index, color] ∧
    (0 ≤ index.toInt ∧ index.toInt < 256 → s.mem.wf = true →
      ∃ t, exec (.objSet index color) s = .next t ∧ OnlyMemory s t ∧
        t.mem.readHalf (0x05000200 + 2 * index.toNat) = color.setWidth 16 ∧
        MemorySameOutside (0x05000200 + 2 * index.toNat) 2 s t) ∧
    (¬ (0 ≤ index.toInt ∧ index.toInt < 256) →
      exec (.objSet index color) s = .next { s with fault := some .palIndexRange })

/-- 40_color_palette.md R70, R72: a slot keeps what was set through every palette command on another slot or on the other
table. -/
def Obligations.PaletteSlotsAreIndependent : Prop :=
  ∀ (i j c d : Word) (s t u : State), s.mem.wf = true → i.toNat < 256 → j.toNat < 256 →
    (exec (.bgSet i c) s = .next t →
      (i ≠ j → exec (.bgSet j d) t = .next u → u.mem.readHalf (0x05000000 + 2 * i.toNat) = c.setWidth 16) ∧
      (exec (.objSet j d) t = .next u → u.mem.readHalf (0x05000000 + 2 * i.toNat) = c.setWidth 16)) ∧
    (exec (.objSet i c) s = .next t →
      (i ≠ j → exec (.objSet j d) t = .next u → u.mem.readHalf (0x05000200 + 2 * i.toNat) = c.setWidth 16) ∧
      (exec (.bgSet j d) t = .next u → u.mem.readHalf (0x05000200 + 2 * i.toNat) = c.setWidth 16))

/-! Tile engine (41_tile_transfer.md) -/

/-- 41_tile_transfer.md R75: BG_WRITE copies exactly its bytes into background tile memory, or raises TILE_NEGATIVE, or
TILE_OVERRUN, in that order; a command with too few data words is truncated. -/
def Obligations.BgWriteCopiesItsBytes : Prop :=
  ∀ (block offset : Word) (bytes : List Byte) (s : State),
    encode (.bgWrite block offset bytes) = 0x20#32 :: block :: offset :: BitVec.ofNat 32 bytes.length :: packBytes bytes ∧
    (0 ≤ block.toInt → 0 ≤ offset.toInt → block.toInt * 64 + offset.toInt + (bytes.length : Int) ≤ 0x10000 →
      s.mem.wf = true →
      ∃ t, exec (.bgWrite block offset bytes) s = .next t ∧ OnlyMemory s t ∧
        (∀ j, j < bytes.length →
          bytes[j]? = some (t.mem.read (0x06000000 + block.toNat * 64 + offset.toNat + j))) ∧
        MemorySameOutside (0x06000000 + block.toNat * 64 + offset.toNat) bytes.length s t) ∧
    (block.toInt < 0 ∨ offset.toInt < 0 →
      exec (.bgWrite block offset bytes) s = .next { s with fault := some .tileNegative }) ∧
    (0 ≤ block.toInt → 0 ≤ offset.toInt → 0x10000 < block.toInt * 64 + offset.toInt + (bytes.length : Int) →
      exec (.bgWrite block offset bytes) s = .next { s with fault := some .tileOverrun }) ∧
    (∀ (n : Word) (ws : List Word), ws.length < (n.toNat + 3) / 4 →
      decode (0x20#32 :: block :: offset :: n :: ws) = .raises .truncatedCommand)

/-- 41_tile_transfer.md R76: OBJ_WRITE copies exactly its bytes into object tile memory, or raises TILE_NEGATIVE, or
TILE_OVERRUN, in that order; a command with too few data words is truncated. -/
def Obligations.ObjWriteCopiesItsBytes : Prop :=
  ∀ (block offset : Word) (bytes : List Byte) (s : State),
    encode (.objWrite block offset bytes) = 0x21#32 :: block :: offset :: BitVec.ofNat 32 bytes.length :: packBytes bytes ∧
    (0 ≤ block.toInt → 0 ≤ offset.toInt → block.toInt * 64 + offset.toInt + (bytes.length : Int) ≤ 0x8000 →
      s.mem.wf = true →
      ∃ t, exec (.objWrite block offset bytes) s = .next t ∧ OnlyMemory s t ∧
        (∀ j, j < bytes.length →
          bytes[j]? = some (t.mem.read (0x06010000 + block.toNat * 64 + offset.toNat + j))) ∧
        MemorySameOutside (0x06010000 + block.toNat * 64 + offset.toNat) bytes.length s t) ∧
    (block.toInt < 0 ∨ offset.toInt < 0 →
      exec (.objWrite block offset bytes) s = .next { s with fault := some .tileNegative }) ∧
    (0 ≤ block.toInt → 0 ≤ offset.toInt → 0x8000 < block.toInt * 64 + offset.toInt + (bytes.length : Int) →
      exec (.objWrite block offset bytes) s = .next { s with fault := some .tileOverrun }) ∧
    (∀ (n : Word) (ws : List Word), ws.length < (n.toNat + 3) / 4 →
      decode (0x21#32 :: block :: offset :: n :: ws) = .raises .truncatedCommand)

/-- 41_tile_transfer.md R79: a block is 64 bytes, so block + 1 with offset - 64 is the same transfer. -/
def Obligations.TileBlocksAre64Bytes : Prop :=
  ∀ (block offset : Word) (bytes : List Byte) (s : State),
    0 ≤ block.toInt → block.toInt + 1 < 2 ^ 31 → 64 ≤ offset.toInt →
    exec (.bgWrite (block + 1#32) (offset - 64#32) bytes) s = exec (.bgWrite block offset bytes) s ∧
    exec (.objWrite (block + 1#32) (offset - 64#32) bytes) s = exec (.objWrite block offset bytes) s

/-- 41_tile_transfer.md R77: the accesses of TileCopy: the halfwords from d - d mod 2 upward while below d + n, each written
whole when both its bytes are covered and else by a read-modify-write that keeps the other byte; none when n = 0 (R75; log
entry 8). -/
def Obligations.TileCopyAccessesHalfwords : Prop :=
  (∀ d : Nat, tilePlan d [] = []) ∧
  ∀ (d : Nat) (bytes : List Byte), bytes ≠ [] →
    ((tilePlan d bytes).map BusOp.addr
      = (List.range ((d % 2 + bytes.length + 1) / 2)).map fun j => d - d % 2 + 2 * j) ∧
    ∀ op ∈ tilePlan d bytes,
      (d ≤ op.addr ∧ op.addr + 1 < d + bytes.length →
        ∃ v : Half, op = .write op.addr v ∧ some (v.extractLsb' 0 8) = bytes[op.addr - d]? ∧
          some (v.extractLsb' 8 8) = bytes[op.addr + 1 - d]?) ∧
      (d ≤ op.addr ∧ op.addr + 1 = d + bytes.length →
        ∃ v : Half, op = .merge op.addr 0xFF00#16 v ∧ some (v.extractLsb' 0 8) = bytes[op.addr - d]? ∧
          v.extractLsb' 8 8 = 0#8) ∧
      (op.addr + 1 = d → ∃ v : Half, op = .merge op.addr 0x00FF#16 v ∧ some (v.extractLsb' 8 8) = bytes[0]? ∧
          v.extractLsb' 0 8 = 0#8)

/-! Framebuffers and page flip (42_framebuffer.md) -/

/-- 42_framebuffer.md R81: M3_SET_PIXEL writes its cell and nothing else, or raises M3_COORD_RANGE. -/
def Obligations.M3SetPixelWritesItsCell : Prop :=
  ∀ (x y color : Word) (s : State),
    encode (.m3SetPixel x y color) = [0x30#32, x, y, color] ∧
    ((0 ≤ x.toInt ∧ x.toInt < 240) ∧ (0 ≤ y.toInt ∧ y.toInt < 160) → s.mem.wf = true →
      ∃ t, exec (.m3SetPixel x y color) s = .next t ∧ OnlyMemory s t ∧
        t.mem.readHalf (0x06000000 + 2 * (y.toNat * 240 + x.toNat)) = color.setWidth 16 ∧
        MemorySameOutside (0x06000000 + 2 * (y.toNat * 240 + x.toNat)) 2 s t) ∧
    (¬ ((0 ≤ x.toInt ∧ x.toInt < 240) ∧ (0 ≤ y.toInt ∧ y.toInt < 160)) →
      exec (.m3SetPixel x y color) s = .next { s with fault := some .m3CoordRange })

/-- 42_framebuffer.md R83: M4_FLIP inverts the page bit of DISPCNT, toggles DT on its own value, and changes nothing else. -/
def Obligations.M4FlipSwapsPages : Prop :=
  encode .m4Flip = [0x40#32] ∧
  ∀ s : State, s.mem.wf = true →
    ∃ t, exec .m4Flip s = .next t ∧
      t = { s with
        mem := t.mem,
        dt := if s.dt = 0x06000000#32 then 0x0600A000#32 else 0x06000000#32,
        pc := s.pc + 1 } ∧
      t.mem.readHalf 0x04000000 = s.mem.readHalf 0x04000000 ^^^ 0x0010#16 ∧
      MemorySameOutside 0x04000000 2 s t

/-- 42_framebuffer.md R84: M4_SET_PIXEL replaces one byte of its cell in the page DT names, or raises M4_COORD_RANGE, or
M4_COLOR_RANGE, in that order. -/
def Obligations.M4SetPixelWritesItsLane : Prop :=
  ∀ (x y color : Word) (s : State),
    encode (.m4SetPixel x y color) = [0x41#32, x, y, color] ∧
    ((0 ≤ x.toInt ∧ x.toInt < 240) ∧ (0 ≤ y.toInt ∧ y.toInt < 160) → 0 ≤ color.toInt ∧ color.toInt < 256 → s.Sound →
      ∃ t, exec (.m4SetPixel x y color) s = .next t ∧ OnlyMemory s t ∧
        t.mem.readHalf (s.dt.toNat + 2 * (y.toNat * 120 + x.toNat / 2)) =
          (if x.toNat % 2 = 1 then
            (s.mem.readHalf (s.dt.toNat + 2 * (y.toNat * 120 + x.toNat / 2)) &&& 0x00FF#16) ||| (color.setWidth 16 <<< 8)
          else
            (s.mem.readHalf (s.dt.toNat + 2 * (y.toNat * 120 + x.toNat / 2)) &&& 0xFF00#16) ||| color.setWidth 16) ∧
        MemorySameOutside (s.dt.toNat + 2 * (y.toNat * 120 + x.toNat / 2)) 2 s t) ∧
    (¬ ((0 ≤ x.toInt ∧ x.toInt < 240) ∧ (0 ≤ y.toInt ∧ y.toInt < 160)) →
      exec (.m4SetPixel x y color) s = .next { s with fault := some .m4CoordRange }) ∧
    ((0 ≤ x.toInt ∧ x.toInt < 240) ∧ (0 ≤ y.toInt ∧ y.toInt < 160) → ¬ (0 ≤ color.toInt ∧ color.toInt < 256) →
      exec (.m4SetPixel x y color) s = .next { s with fault := some .m4ColorRange })

/-- Where DT holds a value no command writes and the cell lies past the address space, M4_SET_PIXEL stops: the model's choice (log
entry 11). -/
def Obligations.M4SetPixelStopsOutsideTheSpace : Prop :=
  ∀ (x y color : Word) (s : State),
    (0 ≤ x.toInt ∧ x.toInt < 240) ∧ (0 ≤ y.toInt ∧ y.toInt < 160) → 0 ≤ color.toInt ∧ color.toInt < 256 →
    0x100000000 < s.dt.toNat + 2 * (y.toNat * 120 + x.toNat / 2) + 2 →
    exec (.m4SetPixel x y color) s = .fault .outsideAddressSpace

/-- 42_framebuffer.md R82, R85: M4_SET_PIXEL changes one byte, the one at DT + 240 y + x, and after it and the pixel whose x
differs in the parity bit both bytes of the cell hold what was set. -/
def Obligations.M4LanesAreIndependent : Prop :=
  ∀ (x y p q : Word) (s t u : State), s.Sound → x.toNat < 240 → y.toNat < 160 → p.toNat < 256 → q.toNat < 256 →
    exec (.m4SetPixel x y p) s = .next t →
    t.mem.read (s.dt.toNat + 240 * y.toNat + x.toNat) = p.setWidth 8 ∧
    (∀ a, a ≠ s.dt.toNat + 240 * y.toNat + x.toNat → t.mem.read a = s.mem.read a) ∧
    (exec (.m4SetPixel (x ^^^ 1#32) y q) t = .next u →
      u.mem.read (s.dt.toNat + 240 * y.toNat + x.toNat) = p.setWidth 8 ∧
      u.mem.read (s.dt.toNat + 240 * y.toNat + (x ^^^ 1#32).toNat) = q.setWidth 8)

/-- 42_framebuffer.md R86: M3_SET_PIXEL does not depend on DT, and neither plotter depends on DISPCNT: with other values there,
the outcome is the same but for those values. -/
def Obligations.PlottersIgnoreDisplayMode : Prop :=
  ∀ (x y color d : Word) (v : Half) (s t : State), s.Sound →
    (exec (.m3SetPixel x y color) s = .next t →
      exec (.m3SetPixel x y color) { s with dt := d } = .next { t with dt := d } ∧
      exec (.m3SetPixel x y color) { s with mem := s.mem.writeHalf 0x04000000 v }
        = .next { t with mem := t.mem.writeHalf 0x04000000 v }) ∧
    (exec (.m4SetPixel x y color) s = .next t →
      exec (.m4SetPixel x y color) { s with mem := s.mem.writeHalf 0x04000000 v }
        = .next { t with mem := t.mem.writeHalf 0x04000000 v })

/-- 42_framebuffer.md R87: the flip laws, over any number of flips with nothing between them: an even number restores DT and
all of memory, an odd number leaves the page bit inverted, and no flip touches memory but that bit; DT has one of its
two values after install and after every step. -/
def Obligations.FlipLaws : Prop :=
  (∀ f : Nat → State, (f 0).Sound → (∀ k, exec .m4Flip (f k) = .next (f (k + 1))) →
    ∀ k, (f (2 * k)).dt = (f 0).dt ∧ (f (2 * k)).mem = (f 0).mem ∧
      (f (2 * k + 1)).dt ≠ (f 0).dt ∧ (f (2 * k + 1)).pageBit = !(f 0).pageBit ∧
      (f (k + 1)).mem.readHalf 0x04000000 = (f k).mem.readHalf 0x04000000 ^^^ 0x0010#16 ∧
      MemorySameOutside 0x04000000 2 (f k) (f (k + 1))) ∧
  (∀ (d : Half) (m : Memory), (State.install d m).DrawTargetLegal) ∧
  (∀ s t : State, s.DrawTargetLegal → step s = .next t → t.DrawTargetLegal)

/-! Sprites (43_object_attributes.md) -/

/-- 43_object_attributes.md R88: SET_ATTR replaces one field of one shadow record and nothing else, or raises OAM_INDEX_RANGE,
or ATTR_FIELD_RANGE, in that order. -/
def Obligations.SetAttrReplacesOneField : Prop :=
  ∀ (index field value : Word) (s : State),
    encode (.setAttr index field value) = [0x50#32, index, field, value] ∧
    (0 ≤ index.toInt ∧ index.toInt < 128 → 0 ≤ field.toInt ∧ field.toInt < 3 →
      ∃ t, exec (.setAttr index field value) s = .next t ∧ t = { s with sh := t.sh, pc := s.pc + 1 } ∧
        t.shRead (index.toNat * 8 + 2 * field.toNat) = value.setWidth 16 ∧
        (∀ k, k < index.toNat * 8 + 2 * field.toNat ∨ index.toNat * 8 + 2 * field.toNat + 2 ≤ k → t.shByte k = s.shByte k) ∧
        (s.shRead (index.toNat * 8 + 2 * field.toNat) = value.setWidth 16 → t.sh = s.sh)) ∧
    (¬ (0 ≤ index.toInt ∧ index.toInt < 128) →
      exec (.setAttr index field value) s = .next { s with fault := some .oamIndexRange }) ∧
    (0 ≤ index.toInt ∧ index.toInt < 128 → ¬ (0 ≤ field.toInt ∧ field.toInt < 3) →
      exec (.setAttr index field value) s = .next { s with fault := some .attrFieldRange })

/-- 43_object_attributes.md R89: UPDATE_OAM copies all 1024 bytes of SH to OAM by 512 ascending halfword writes, and changes
nothing else. -/
def Obligations.UpdateOamCommitsAllOfSh : Prop :=
  encode .updateOam = [0x51#32] ∧
  ∀ s : State, s.mem.wf = true →
    busPlan .updateOam s = (List.range 512).map (fun j => BusOp.write (0x07000000 + 2 * j) (s.shRead (2 * j))) ∧
    ∃ t, exec .updateOam s = .next t ∧ OnlyMemory s t ∧
      (∀ k, k < 1024 → t.mem.read (0x07000000 + k) = s.shByte k) ∧
      MemorySameOutside 0x07000000 1024 s t ∧ (s.Committed → t.mem = s.mem)

/-- 43_object_attributes.md R90 to R95: each field codec responds its sub-field of its slot of OAM, right-justified, and changes
nothing else, or raises OAM_INDEX_RANGE. -/
def Obligations.CodecsExtractTheirFields : Prop :=
  ∀ (index : Word) (s : State),
    (encode (.attr0Objy index) = [0x60#32, index] ∧ encode (.attr1Objx index) = [0x61#32, index] ∧
      encode (.attr1Rot index) = [0x62#32, index] ∧ encode (.attr2Priority index) = [0x63#32, index] ∧
      encode (.attr2Palette index) = [0x64#32, index]) ∧
    (0 ≤ index.toInt ∧ index.toInt < 128 →
      exec (.attr0Objy index) s = .next { s with
        resp := s.resp ++ [((s.mem.readHalf (0x07000000 + index.toNat * 8)).extractLsb' 0 8).setWidth 32],
        pc := s.pc + 1 } ∧
      exec (.attr1Objx index) s = .next { s with
        resp := s.resp ++ [((s.mem.readHalf (0x07000000 + index.toNat * 8 + 2)).extractLsb' 0 9).setWidth 32],
        pc := s.pc + 1 } ∧
      exec (.attr1Rot index) s = .next { s with
        resp := s.resp ++ [((s.mem.readHalf (0x07000000 + index.toNat * 8 + 2)).extractLsb' 9 5).setWidth 32],
        pc := s.pc + 1 } ∧
      exec (.attr2Priority index) s = .next { s with
        resp := s.resp ++ [((s.mem.readHalf (0x07000000 + index.toNat * 8 + 4)).extractLsb' 10 2).setWidth 32],
        pc := s.pc + 1 } ∧
      exec (.attr2Palette index) s = .next { s with
        resp := s.resp ++ [((s.mem.readHalf (0x07000000 + index.toNat * 8 + 4)).extractLsb' 12 4).setWidth 32],
        pc := s.pc + 1 }) ∧
    (¬ (0 ≤ index.toInt ∧ index.toInt < 128) →
      exec (.attr0Objy index) s = .next { s with fault := some .oamIndexRange } ∧
      exec (.attr1Objx index) s = .next { s with fault := some .oamIndexRange } ∧
      exec (.attr1Rot index) s = .next { s with fault := some .oamIndexRange } ∧
      exec (.attr2Priority index) s = .next { s with fault := some .oamIndexRange } ∧
      exec (.attr2Palette index) s = .next { s with fault := some .oamIndexRange })

/-- 43_object_attributes.md R96: no step but UPDATE_OAM and a host write changes a byte of OAM. -/
def Obligations.OnlyCommitAndHostWriteOam : Prop :=
  ∀ s t : State, s.Sound → s.dueHostWrite = none → (∀ rest, s.fetch ≠ .command .updateOam rest) → step s = .next t →
    ∀ k, k < 1024 → t.oamByte k = s.oamByte k

/-- 43_object_attributes.md R97, 10_state.md R27: UPDATE_OAM makes Committed true, and it stays true through every step that
changes no byte of SH and is no host write into OAM. -/
def Obligations.CommittedHoldsUntilBroken : Prop :=
  (∀ s t : State, s.mem.wf = true → exec .updateOam s = .next t → t.Committed) ∧
  (∀ s t : State, s.Sound → s.Committed → step s = .next t → t.sh = s.sh →
    (∀ w, s.dueHostWrite = some w → w.addr.toNat + w.width.bytes ≤ 0x07000000 ∨ 0x07000400 ≤ w.addr.toNat) →
    t.Committed)

/-- 43_object_attributes.md R98: a codec's response depends on OAM and its operand alone, so SET_ATTR does not change it. -/
def Obligations.CodecsSeeOnlyOam : Prop :=
  (∀ (i : Instr) (s s' : State), isCodec i = true → (∀ k, k < 1024 → s.oamByte k = s'.oamByte k) →
    (∃ w : Word, exec i s = .next { s with resp := s.resp ++ [w], pc := s.pc + 1 } ∧
      exec i s' = .next { s' with resp := s'.resp ++ [w], pc := s'.pc + 1 }) ∨
    (exec i s = .next { s with fault := some .oamIndexRange } ∧
      exec i s' = .next { s' with fault := some .oamIndexRange })) ∧
  (∀ (i : Instr) (index field value : Word) (s t : State), isCodec i = true →
    exec (.setAttr index field value) s = .next t →
    (∃ w : Word, exec i s = .next { s with resp := s.resp ++ [w], pc := s.pc + 1 } ∧
      exec i t = .next { t with resp := t.resp ++ [w], pc := t.pc + 1 }) ∨
    (exec i s = .next { s with fault := some .oamIndexRange } ∧ exec i t = .next { t with fault := some .oamIndexRange }))

/-- 43_object_attributes.md R99: after SET_ATTR i, f, v and UPDATE_OAM a codec that reads field f of slot i returns its
sub-field of v. -/
def Obligations.CodecsReadBackAfterCommit : Prop :=
  ∀ (index value : Word) (s : State), s.mem.wf = true → index.toNat < 128 →
    (∃ t u, exec (.setAttr index 0#32 value) s = .next t ∧ exec .updateOam t = .next u ∧
      exec (.attr0Objy index) u = .next { u with
        resp := u.resp ++ [(value.extractLsb' 0 8).setWidth 32], pc := u.pc + 1 }) ∧
    (∃ t u, exec (.setAttr index 1#32 value) s = .next t ∧ exec .updateOam t = .next u ∧
      exec (.attr1Objx index) u = .next { u with
        resp := u.resp ++ [(value.extractLsb' 0 9).setWidth 32], pc := u.pc + 1 } ∧
      exec (.attr1Rot index) u = .next { u with
        resp := u.resp ++ [(value.extractLsb' 9 5).setWidth 32], pc := u.pc + 1 }) ∧
    (∃ t u, exec (.setAttr index 2#32 value) s = .next t ∧ exec .updateOam t = .next u ∧
      exec (.attr2Priority index) u = .next { u with
        resp := u.resp ++ [(value.extractLsb' 10 2).setWidth 32], pc := u.pc + 1 } ∧
      exec (.attr2Palette index) u = .next { u with
        resp := u.resp ++ [(value.extractLsb' 12 4).setWidth 32], pc := u.pc + 1 })

/-! Faults (60_exceptions.md) and the program counter and responses (10_state.md) -/

/-- 60_exceptions.md R102: the codes, and which command can raise which cause. -/
def Obligations.CausesAndTheirCommands : Prop :=
  ([Cause.illegalOpcode, .reservedNonzero, .truncatedCommand, .palIndexRange, .tileNegative, .tileOverrun, .m3CoordRange,
      .m4CoordRange, .m4ColorRange, .oamIndexRange, .attrFieldRange].map causeCode
    = [0x01#8, 0x02#8, 0x03#8, 0x10#8, 0x20#8, 0x21#8, 0x30#8, 0x40#8, 0x41#8, 0x50#8, 0x51#8]) ∧
  (∀ (i : Instr) (s t : State) (c : Cause), s.fault = none → exec i s = .next t → t.fault = some c → c ∈ causesOf i) ∧
  (∀ (ws : List Word) (c : Cause), decode ws = .raises c → c ∈ [Cause.illegalOpcode, .reservedNonzero, .truncatedCommand])

/-- 60_exceptions.md R103, R104, R105: a step that records a cause changes nothing else: pc, the stream, memory, SH, DT and
RESP are as before. -/
def Obligations.FaultsArePrecise : Prop :=
  ∀ (s t : State) (c : Cause), step s = .next t → t.fault = some c → t = { s with fault := some c }

/-- 10_state.md R30: FAULT is none after install, a raise sets it, no command clears it, and while it holds a cause the block
executes no command. -/
def Obligations.FaultIsSticky : Prop :=
  (∀ (d : Half) (m : Memory), (State.install d m).fault = none) ∧
  (∀ (c : Cause) (s : State), raiseUndefined c s = .next { s with fault := some c }) ∧
  (∀ (i : Instr) (s t : State), exec i s = .next t → s.fault ≠ none → t.fault ≠ none) ∧
  (∀ (s : State) (c : Cause), s.fault = some c → ∀ t, step s ≠ .next t)

/-- 10_state.md R19: pc is 0 after install; a command that completes adds 1, a faulting one leaves it, and so does a host
write. -/
def Obligations.PcCountsCommands : Prop :=
  (∀ (d : Half) (m : Memory), (State.install d m).pc = 0) ∧
  (∀ (i : Instr) (s t : State), s.fault = none → exec i s = .next t →
    (t.fault = none ∧ t.pc = s.pc + 1) ∨ (t.fault ≠ none ∧ t.pc = s.pc)) ∧
  (∀ s t : State, step s = .next t → s.dueHostWrite ≠ none → t.pc = s.pc)

/-- 10_state.md R31: RESP is empty after install; RGB5, RGB8 and the codecs append exactly one word when they complete, every
other command none. -/
def Obligations.ResponsesAreCounted : Prop :=
  (∀ (d : Half) (m : Memory), (State.install d m).resp = []) ∧
  (∀ (i : Instr) (s t : State), s.fault = none → exec i s = .next t → t.fault = none →
    if responds i then ∃ w : Word, t.resp = s.resp ++ [w] else t.resp = s.resp)

/-- 10_state.md R18, R24, 20_memory.md R41, R48, 43_object_attributes.md R88: of the steps only M4_FLIP changes DT and only SET_ATTR
changes SH; a host write changes no block state. The queue a host write is taken from is the model's own (log entry 4). -/
def Obligations.BlockStateHasOneWriterEach : Prop :=
  ∀ s t : State, step s = .next t →
    (t.dt ≠ s.dt → ∃ rest, s.fetch = .command .m4Flip rest ∧ s.dueHostWrite = none) ∧
    (t.sh ≠ s.sh → ∃ index field value rest, s.fetch = .command (.setAttr index field value) rest ∧ s.dueHostWrite = none) ∧
    (s.dueHostWrite ≠ none → t = { s with mem := t.mem, hostWrites := s.hostWrites.tail })

/-! Memory and ordering (20_memory.md), install (70_reset_and_hazards.md) and the invariants -/

/-- 20_memory.md R39, R35, R40: every access of a command is a halfword at an even address inside the command's region. -/
def Obligations.AccessesAreAlignedAndInRegion : Prop :=
  ∀ (i : Instr) (s : State) (op : BusOp), s.DrawTargetLegal → op ∈ busPlan i s →
    op.addr % 2 = 0 ∧ (regionOf i s).1 ≤ op.addr ∧ op.addr + 2 ≤ (regionOf i s).1 + (regionOf i s).2

/-- 20_memory.md R41: how many halfwords each command reads and writes when it completes. -/
def Obligations.AccessCounts : Prop :=
  ∀ (s : State) (a b c : Word) (bytes : List Byte),
    (planReads (busPlan (.rgb5 a b c) s) = 0 ∧ planWrites (busPlan (.rgb5 a b c) s) = 0) ∧
    (planReads (busPlan (.rgb8 a b c) s) = 0 ∧ planWrites (busPlan (.rgb8 a b c) s) = 0) ∧
    (inRange a 256 = true →
      planReads (busPlan (.bgSet a b) s) = 0 ∧ planWrites (busPlan (.bgSet a b) s) = 1 ∧
      planReads (busPlan (.objSet a b) s) = 0 ∧ planWrites (busPlan (.objSet a b) s) = 1) ∧
    (∀ d : Nat, planReads (tilePlan d bytes) ≤ 2 ∧
      planWrites (tilePlan d bytes) = if bytes = [] then 0 else (d % 2 + bytes.length + 1) / 2) ∧
    (0 ≤ a.toInt → 0 ≤ b.toInt → a.toInt * 64 + b.toInt + (bytes.length : Int) ≤ 0x10000 →
      (planReads (busPlan (.bgWrite a b bytes) s)
        = if bytes = [] then 0 else (0x06000000 + a.toNat * 64 + b.toNat) % 2
            + (0x06000000 + a.toNat * 64 + b.toNat + bytes.length) % 2) ∧
      planReads (busPlan (.bgWrite a b bytes) s) ≤ 2 ∧
      planWrites (busPlan (.bgWrite a b bytes) s)
        = if bytes = [] then 0 else ((0x06000000 + a.toNat * 64 + b.toNat) % 2 + bytes.length + 1) / 2) ∧
    (0 ≤ a.toInt → 0 ≤ b.toInt → a.toInt * 64 + b.toInt + (bytes.length : Int) ≤ 0x8000 →
      (planReads (busPlan (.objWrite a b bytes) s)
        = if bytes = [] then 0 else (0x06010000 + a.toNat * 64 + b.toNat) % 2
            + (0x06010000 + a.toNat * 64 + b.toNat + bytes.length) % 2) ∧
      planReads (busPlan (.objWrite a b bytes) s) ≤ 2 ∧
      planWrites (busPlan (.objWrite a b bytes) s)
        = if bytes = [] then 0 else ((0x06010000 + a.toNat * 64 + b.toNat) % 2 + bytes.length + 1) / 2) ∧
    (onScreen a b = true →
      planReads (busPlan (.m3SetPixel a b c) s) = 0 ∧ planWrites (busPlan (.m3SetPixel a b c) s) = 1) ∧
    (planReads (busPlan .m4Flip s) = 1 ∧ planWrites (busPlan .m4Flip s) = 1) ∧
    (onScreen a b = true → inRange c 256 = true →
      planReads (busPlan (.m4SetPixel a b c) s) = 1 ∧ planWrites (busPlan (.m4SetPixel a b c) s) = 1) ∧
    (planReads (busPlan (.setAttr a b c) s) = 0 ∧ planWrites (busPlan (.setAttr a b c) s) = 0) ∧
    (planReads (busPlan .updateOam s) = 0 ∧ planWrites (busPlan .updateOam s) = 512) ∧
    (inRange a 128 = true → ∀ i ∈ [Instr.attr0Objy a, .attr1Objx a, .attr1Rot a, .attr2Priority a, .attr2Palette a],
      planReads (busPlan i s) = 1 ∧ planWrites (busPlan i s) = 0)

/-- 20_memory.md R44, 41_tile_transfer.md R77, 43_object_attributes.md R89: the halfword accesses of a command, made in order,
leave exactly the memory its meaning leaves. -/
def Obligations.AccessesGiveTheMeaningsMemory : Prop :=
  ∀ (i : Instr) (s t : State), s.Sound → exec i s = .next t → runPlan s.mem (busPlan i s) = t.mem

/-- 20_memory.md R42, R49: whenever the display reads a halfword while a command runs, it finds the whole old value or the whole
new one: the old before the first access, the new after the last. That the display is a function of the accesses made so far is
the model's choice (log entry 7). -/
def Obligations.DisplaySeesOldOrNewHalfword : Prop :=
  ∀ (i : Instr) (s t : State), s.Sound → exec i s = .next t →
    ∀ a, a % 2 = 0 →
      displayView i s 0 a = s.mem.readHalf a ∧
      (∀ k, (busPlan i s).length ≤ k → displayView i s k a = t.mem.readHalf a) ∧
      (∀ k, displayView i s k a = s.mem.readHalf a ∨ displayView i s k a = t.mem.readHalf a)

/-- 20_memory.md R43: repeating any command but M4_FLIP leaves memory as one execution left it. -/
def Obligations.CommandsAreIdempotentOnMemory : Prop :=
  ∀ (i : Instr) (s t u : State), s.Sound → i ≠ .m4Flip → exec i s = .next t → exec i t = .next u → u.mem = t.mem

/-- 20_memory.md R48: a due host write changes its own bytes of console memory, little-endian, and nothing else; a misaligned
one is outside the model (60_exceptions.md R117). The queue of host writes is the model's own (log entry 4). -/
def Obligations.HostWriteChangesItsBytes : Prop :=
  ∀ (s : State) (w : HostWrite), s.fault = none → s.dueHostWrite = some w →
    (s.mem.wf = true → w.addr.toNat % w.width.bytes = 0 →
      ∃ t, step s = .next t ∧ t = { s with mem := t.mem, hostWrites := s.hostWrites.tail } ∧
        (∀ j, j < w.width.bytes → t.mem.read (w.addr.toNat + j) = w.value.extractLsb' (8 * j) 8) ∧
        MemorySameOutside w.addr.toNat w.width.bytes s t) ∧
    (w.addr.toNat % w.width.bytes ≠ 0 → step s = .refused .misalignedHostAccess)

/-- 20_memory.md R37, R48: a host read gives the bytes at its address, least significant first, and nothing above them; a misaligned
one has no value (60_exceptions.md R117; log entry 4). -/
def Obligations.HostReadGivesItsBytes : Prop :=
  ∀ (s : State) (a : Word) (w : Width),
    (a.toNat % w.bytes = 0 →
      ∃ v : Word, s.hostRead a w = some v ∧ v.toNat < 2 ^ (8 * w.bytes) ∧
        ∀ j, j < w.bytes → v.extractLsb' (8 * j) 8 = s.mem.read (a.toNat + j)) ∧
    (a.toNat % w.bytes ≠ 0 → s.hostRead a w = none)

/-- 70_reset_and_hazards.md R128: a host write that changes the page bit inverts the coupling of DT and the page bit. -/
def Obligations.HostPageBitChangeInvertsTheCoupling : Prop :=
  ∀ s t : State, step s = .next t → s.dueHostWrite ≠ none → t.pageBit ≠ s.pageBit → (t.Coupled ↔ ¬ s.Coupled)

/-- 70_reset_and_hazards.md R131: whatever was written into OAM from outside, the next UPDATE_OAM undoes: two states that differ
in OAM alone are the same after it. -/
def Obligations.CommitUndoesHostOamWrites : Prop :=
  ∀ (s : State) (m : Memory), s.mem.wf = true → m.wf = true →
    (∀ x, x < 0x07000000 ∨ 0x07000400 ≤ x → m.read x = s.mem.read x) →
    exec .updateOam { s with mem := m } = exec .updateOam s

/-- 10_state.md R33, 70_reset_and_hazards.md R119: what install leaves, for every value of the two OPEN parameters. -/
def Obligations.InstallLeavesTheResetValues : Prop :=
  ∀ (d : Half) (m : Memory), m.wf = true →
    (∀ i, i < 128 →
      (State.install d m).shRead (i * 8) = 0x0200#16 ∧ (State.install d m).shRead (i * 8 + 2) = 0x0000#16 ∧
      (State.install d m).shRead (i * 8 + 4) = 0x0000#16 ∧ (State.install d m).shRead (i * 8 + 6) = 0x0000#16) ∧
    (State.install d m).Committed ∧ (State.install d m).dt = 0x0600A000#32 ∧ (State.install d m).pc = 0 ∧
    (State.install d m).fault = none ∧ (State.install d m).resp = [] ∧
    (State.install d m).mem.readHalf 0x04000000 = d ∧
    (∀ x, (x < 0x04000000 ∨ 0x04000002 ≤ x) → (x < 0x07000000 ∨ 0x07000400 ≤ x) →
      (State.install d m).mem.read x = m.read x)

/-- Install leaves a sound state, for every value of the two OPEN parameters, and so does the model's own reset. -/
def Obligations.InstallIsSound : Prop :=
  (∀ (d : Half) (m : Memory), m.wf = true → (State.install d m).Sound) ∧ State.reset.Sound

/-- Every step keeps the state sound: memory canonical (20_memory.md R34, R36), DT one of its two values (10_state.md R21). -/
def Obligations.EveryStepKeepsSoundness : Prop :=
  ∀ s t : State, s.Sound → step s = .next t → t.Sound

/-- 10_state.md R32: every step keeps the draw target the hidden page, if it was, unless a host write changes the page bit. -/
def Obligations.DrawTargetStaysHidden : Prop :=
  ∀ s t : State, s.Sound → s.Coupled → step s = .next t → (s.dueHostWrite = none ∨ t.pageBit = s.pageBit) → t.Coupled
end

