-- ==== Sys2Proof/Laws/Memory.lean ====
section
/-! SUPPORT. What the memory operations do: a read after a write, that every write keeps the canonical form, and that
canonical memories with the same bytes are the same data. -/

namespace Sys2Proof.Machine

theorem wfFrom_cons (lo k : Nat) (v : Byte) (m : Memory) :
    Memory.wfFrom lo ((k, v) :: m) = true ↔
      lo ≤ k ∧ k < Config.spaceBytes ∧ v ≠ unlistedByte ∧ Memory.wfFrom (k + 1) m = true := by
  simp [Memory.wfFrom, and_assoc]

theorem wfFrom_mono {lo lo' : Nat} (h : lo' ≤ lo) : ∀ {m : Memory}, Memory.wfFrom lo m = true → Memory.wfFrom lo' m = true
  | [], _ => rfl
  | (k, v) :: m, hm => by
    rw [wfFrom_cons] at hm ⊢
    exact ⟨h.trans hm.1, hm.2⟩

/-- Below its first address a canonical memory reads as unlisted. -/
theorem read_below {lo x : Nat} (hx : x < lo) : ∀ {m : Memory}, Memory.wfFrom lo m = true → m.read x = unlistedByte
  | [], _ => rfl
  | (k, v) :: m, hm => by
    rw [wfFrom_cons] at hm
    have hk : k ≠ x := by omega
    simp only [Memory.read, hk, if_false]
    exact read_below (by omega) hm.2.2.2

theorem wfFrom_cellsFrom (a : Nat) : ∀ (bs : List Byte), a + bs.length ≤ Config.spaceBytes →
    Memory.wfFrom a (cellsFrom a bs) = true
  | [], _ => rfl
  | b :: bs, h => by
    simp only [List.length_cons] at h
    have ih := wfFrom_cellsFrom (a + 1) bs (by omega)
    unfold cellsFrom
    split
    · exact wfFrom_mono (by omega) ih
    · next hb => exact (wfFrom_cons ..).2 ⟨le_refl a, by omega, hb, ih⟩

theorem read_cellsFrom (a x : Nat) : ∀ (bs : List Byte),
    Memory.read (cellsFrom a bs) x = if a ≤ x ∧ x < a + bs.length then bs.getD (x - a) 0#8 else unlistedByte
  | [] => by simp [cellsFrom, Memory.read]
  | b :: bs => by
    have ih := read_cellsFrom (a + 1) x bs
    unfold cellsFrom
    by_cases hx : x = a
    · subst hx
      have hnot : ¬ (x + 1 ≤ x ∧ x < x + 1 + bs.length) := by omega
      split
      · next hb => rw [ih, if_neg hnot]; simp [hb]
      · simp [Memory.read]
    · have hread : Memory.read ((a, b) :: cellsFrom (a + 1) bs) x = Memory.read (cellsFrom (a + 1) bs) x := by
        simp [Memory.read, Ne.symm hx]
      have hgoal : (if a ≤ x ∧ x < a + (b :: bs).length then (b :: bs).getD (x - a) 0#8 else unlistedByte)
          = (if a + 1 ≤ x ∧ x < a + 1 + bs.length then bs.getD (x - (a + 1)) 0#8 else unlistedByte) := by
        by_cases h : a + 1 ≤ x ∧ x < a + 1 + bs.length
        · have h' : a ≤ x ∧ x < a + (b :: bs).length := by simp only [List.length_cons]; omega
          rw [if_pos h, if_pos h', show x - a = (x - (a + 1)) + 1 by omega]
          simp
        · have h' : ¬ (a ≤ x ∧ x < a + (b :: bs).length) := by simp only [List.length_cons]; omega
          rw [if_neg h, if_neg h']
      rw [hgoal, ← ih]
      split <;> simp [hread]

theorem wfFrom_dropBelow (e : Nat) : ∀ {lo : Nat} {m : Memory}, Memory.wfFrom lo m = true →
    Memory.wfFrom (max lo e) (dropBelow e m) = true
  | _, [], _ => rfl
  | lo, (k, v) :: m, hm => by
    have h := (wfFrom_cons ..).1 hm
    unfold dropBelow
    split
    · exact wfFrom_mono (by omega) (wfFrom_dropBelow e h.2.2.2)
    · exact (wfFrom_cons ..).2 ⟨by omega, h.2⟩

theorem read_dropBelow (e x : Nat) : ∀ {lo : Nat} {m : Memory}, Memory.wfFrom lo m = true →
    Memory.read (dropBelow e m) x = if e ≤ x then m.read x else unlistedByte
  | _, [], _ => by simp [dropBelow, Memory.read]
  | lo, (k, v) :: m, hm => by
    have h := (wfFrom_cons ..).1 hm
    unfold dropBelow
    by_cases hk : k < e
    · rw [if_pos hk, read_dropBelow e x h.2.2.2]
      split
      · have : k ≠ x := by omega
        simp [Memory.read, this]
      · rfl
    · rw [if_neg hk]
      split
      · rfl
      · exact read_below (lo := k) (by omega) ((wfFrom_cons ..).2 ⟨le_refl k, h.2⟩)

/-- A memory laid in front of one that begins above it. -/
theorem wfFrom_append (e : Nat) : ∀ {lo : Nat} {m n : Memory}, Memory.wfFrom lo m = true → Memory.wfFrom e n = true →
    (∀ c ∈ m, c.1 < e) → lo ≤ e → Memory.wfFrom lo (m ++ n) = true
  | _, [], _, _, hn, _, hle => wfFrom_mono hle hn
  | lo, (k, v) :: m, n, hm, hn, hlt, _ => by
    have h := (wfFrom_cons ..).1 hm
    have hk : k < e := hlt (k, v) (by simp)
    exact (wfFrom_cons ..).2 ⟨h.1, h.2.1, h.2.2.1,
      wfFrom_append e h.2.2.2 hn (fun c hc => hlt c (by simp [hc])) (by omega)⟩

theorem mem_cellsFrom (a : Nat) : ∀ (bs : List Byte) (c : Host.Cell), c ∈ cellsFrom a bs → a ≤ c.1 ∧ c.1 < a + bs.length
  | [], _, hc => by simp [cellsFrom] at hc
  | b :: bs, c, hc => by
    have step := mem_cellsFrom (a + 1) bs c
    unfold cellsFrom at hc
    simp only [List.length_cons]
    split at hc
    · have := step hc; omega
    · rcases List.mem_cons.1 hc with h | h
      · subst h; simp
      · have := step h; omega

/-- A read of a memory laid in front of another. -/
theorem read_append (x : Nat) : ∀ (m n : Memory), (∀ c ∈ m, c.2 ≠ unlistedByte) →
    Memory.read (m ++ n) x = if m.read x = unlistedByte then n.read x else m.read x
  | [], n, _ => by simp [Memory.read]
  | (k, v) :: m, n, hv => by
    have ih := read_append x m n (fun c hc => hv c (by simp [hc]))
    have hne : v ≠ unlistedByte := hv (k, v) (by simp)
    by_cases hk : k = x
    · simp [Memory.read, hk, hne]
    · simp [Memory.read, hk, ih]

theorem cells_ne_unlisted {lo : Nat} : ∀ {m : Memory}, Memory.wfFrom lo m = true → ∀ c ∈ m, c.2 ≠ unlistedByte
  | [], _, _, hc => by simp at hc
  | (k, v) :: m, hm, c, hc => by
    have h := (wfFrom_cons ..).1 hm
    rcases List.mem_cons.1 hc with e | e
    · subst e; exact h.2.2.1
    · exact cells_ne_unlisted h.2.2.2 c e

/-- Everything a write of a run of bytes does to a read. -/
theorem read_writeRun_from (a x : Nat) (bs : List Byte) (hsp : a + bs.length ≤ Config.spaceBytes) :
    ∀ {lo : Nat} {m : Memory}, Memory.wfFrom lo m = true →
      Memory.read (Memory.writeRun a bs m) x = if a ≤ x ∧ x < a + bs.length then bs.getD (x - a) 0#8 else m.read x
  | _, [], _ => by rw [Memory.writeRun, read_cellsFrom]; rfl
  | lo, (k, v) :: m, hm => by
    have h := (wfFrom_cons ..).1 hm
    unfold Memory.writeRun
    by_cases hk : k < a
    · rw [if_pos hk]
      by_cases hx : k = x
      · have : ¬ (a ≤ x ∧ x < a + bs.length) := by omega
        simp [Memory.read, hx, if_neg this]
      · simp only [Memory.read, hx, if_false]
        exact read_writeRun_from a x bs hsp h.2.2.2
    · rw [if_neg hk, read_append x _ _ (cells_ne_unlisted (wfFrom_cellsFrom a bs hsp)), read_cellsFrom,
        read_dropBelow _ _ hm]
      by_cases hin : a ≤ x ∧ x < a + bs.length
      · rw [if_pos hin, if_neg (show ¬ (a + bs.length ≤ x) by omega)]
        split
        · next he => exact he.symm
        · rfl
      · rw [if_neg hin, if_pos rfl]
        rw [if_neg hin]
        by_cases hge : a + bs.length ≤ x
        · rw [if_pos hge]
        · have hlt : x < k := by omega
          rw [if_neg hge]
          exact (read_below hlt ((wfFrom_cons ..).2 ⟨le_refl k, h.2⟩)).symm

/-- Every write inside the address space keeps the canonical form. -/
theorem wfFrom_writeRun (a : Nat) (bs : List Byte) (hsp : a + bs.length ≤ Config.spaceBytes) :
    ∀ {lo : Nat} {m : Memory}, lo ≤ a → Memory.wfFrom lo m = true → Memory.wfFrom lo (Memory.writeRun a bs m) = true
  | lo, [], hlo, _ => wfFrom_mono hlo (wfFrom_cellsFrom a bs hsp)
  | lo, (k, v) :: m, hlo, hm => by
    have h := (wfFrom_cons ..).1 hm
    unfold Memory.writeRun
    by_cases hk : k < a
    · rw [if_pos hk]
      exact (wfFrom_cons ..).2 ⟨h.1, h.2.1, h.2.2.1, wfFrom_writeRun a bs hsp (by omega) h.2.2.2⟩
    · rw [if_neg hk]
      refine wfFrom_append (a + bs.length) (wfFrom_mono hlo (wfFrom_cellsFrom a bs hsp)) ?_ ?_ (by omega)
      · exact wfFrom_mono (by omega) (wfFrom_dropBelow (a + bs.length) hm)
      · exact fun c hc => (mem_cellsFrom a bs c hc).2

/-- A read after a write of a run of bytes, of any address. -/
theorem read_writeRun {m : Memory} (hm : m.wf = true) (a x : Nat) (bs : List Byte)
    (hsp : a + bs.length ≤ Config.spaceBytes) :
    (m.writeRun a bs).read x = if a ≤ x ∧ x < a + bs.length then bs.getD (x - a) 0#8 else m.read x :=
  read_writeRun_from a x bs hsp hm

/-- A write of a run of bytes keeps the canonical form. -/
theorem wf_writeRun {m : Memory} (hm : m.wf = true) (a : Nat) (bs : List Byte)
    (hsp : a + bs.length ≤ Config.spaceBytes) : (m.writeRun a bs).wf = true :=
  wfFrom_writeRun a bs hsp (Nat.zero_le a) hm

theorem length_halfBytes (v : Half) : (halfBytes v).length = 2 := rfl

/-- A halfword write keeps the canonical form. -/
theorem wf_writeHalf {m : Memory} (hm : m.wf = true) (a : Nat) (v : Half) (ha : a + 2 ≤ Config.spaceBytes) :
    (m.writeHalf a v).wf = true :=
  wf_writeRun hm a (halfBytes v) ha

/-- A read of a byte after a halfword write. -/
theorem read_writeHalf {m : Memory} (hm : m.wf = true) (a x : Nat) (v : Half) (ha : a + 2 ≤ Config.spaceBytes) :
    (m.writeHalf a v).read x
      = if x = a then v.extractLsb' 0 8 else if x = a + 1 then v.extractLsb' 8 8 else m.read x := by
  rw [Memory.writeHalf, read_writeRun hm a x (halfBytes v) ha, length_halfBytes]
  by_cases h0 : x = a
  · subst h0; simp [halfBytes]
  · by_cases h1 : x = a + 1
    · subst h1; simp [halfBytes]
    · rw [if_neg (by omega), if_neg h0, if_neg h1]

theorem half_of_bytes (v : Half) : (v.extractLsb' 8 8 ++ v.extractLsb' 0 8 : Half) = v := by
  ext i hi
  simp only [BitVec.getElem_append, BitVec.getElem_extractLsb']
  by_cases h : i < 8
  · simp [h, BitVec.getLsbD_eq_getElem hi]
  · simp only [h, dite_false]
    rw [show 8 + (i - 8) = i by omega, BitVec.getLsbD_eq_getElem hi]

/-- The halfword just written reads back. -/
theorem readHalf_writeHalf_same {m : Memory} (hm : m.wf = true) (a : Nat) (v : Half) (ha : a + 2 ≤ Config.spaceBytes) :
    (m.writeHalf a v).readHalf a = v := by
  rw [Memory.readHalf, read_writeHalf hm a _ v ha, read_writeHalf hm a _ v ha, if_neg (by omega), if_pos rfl, if_pos rfl,
    half_of_bytes]

/-- A halfword write leaves every halfword that shares no byte with it. -/
theorem readHalf_writeHalf_other {m : Memory} (hm : m.wf = true) (a x : Nat) (v : Half) (ha : a + 2 ≤ Config.spaceBytes)
    (hx : x + 2 ≤ a ∨ a + 2 ≤ x) : (m.writeHalf a v).readHalf x = m.readHalf x := by
  rw [Memory.readHalf, Memory.readHalf, read_writeHalf hm a _ v ha, read_writeHalf hm a _ v ha, if_neg (by omega),
    if_neg (by omega), if_neg (by omega), if_neg (by omega)]

/-- Two canonical memories that read alike from `lo` on are the same list. -/
theorem memory_ext_from : ∀ {lo : Nat} {m n : Memory}, Memory.wfFrom lo m = true → Memory.wfFrom lo n = true →
    (∀ x, m.read x = n.read x) → m = n
  | _, [], [], _, _, _ => rfl
  | _, [], (k, v) :: n, _, hn, h => by
    have hv := ((wfFrom_cons ..).1 hn).2.2.1
    have := h k
    simp [Memory.read] at this
    exact absurd this.symm hv
  | _, (k, v) :: m, [], hm, _, h => by
    have hv := ((wfFrom_cons ..).1 hm).2.2.1
    have := h k
    simp [Memory.read] at this
    exact absurd this hv
  | lo, (k, v) :: m, (k', v') :: n, hm, hn, h => by
    have h1 := (wfFrom_cons ..).1 hm
    have h2 := (wfFrom_cons ..).1 hn
    have hk : k = k' := by
      rcases lt_trichotomy k k' with hlt | heq | hgt
      · have hx := h k
        rw [read_below (lo := k') hlt ((wfFrom_cons ..).2 ⟨le_refl _, h2.2⟩)] at hx
        exact absurd (by simpa [Memory.read] using hx) h1.2.2.1
      · exact heq
      · have hx := h k'
        rw [read_below (lo := k) hgt ((wfFrom_cons ..).2 ⟨le_refl _, h1.2⟩)] at hx
        exact absurd (by simpa [Memory.read] using hx.symm) h2.2.2.1
    subst hk
    have hv : v = v' := by simpa [Memory.read] using h k
    subst hv
    have hrest : ∀ x, Memory.read m x = Memory.read n x := fun x => by
      by_cases hx : k = x
      · subst hx
        rw [read_below (Nat.lt_succ_self k) h1.2.2.2, read_below (Nat.lt_succ_self k) h2.2.2.2]
      · simpa [Memory.read, hx] using h x
    rw [memory_ext_from h1.2.2.2 h2.2.2.2 hrest]

/-- Equal memories are equal data. -/
theorem memory_ext {m n : Memory} (hm : m.wf = true) (hn : n.wf = true) (h : ∀ x, m.read x = n.read x) : m = n :=
  memory_ext_from hm hn h

theorem length_installShadow : installShadow.toList.length = 1024 := by simp

/-- Install's memory is canonical when the memory it found is. -/
theorem wf_installMemory {m : Memory} (hm : m.wf = true) (d : Half) : (installMemory d m).wf = true :=
  wf_writeRun (wf_writeHalf hm _ d (by decide)) _ _ (by simp)

/-- Byte `j` of record `q` of repeated records. -/
theorem getElem?_flatten_replicate (r : List Byte) (j : Nat) (hj : j < r.length) :
    ∀ n q, q < n → (List.replicate n r).flatten[q * r.length + j]? = r[j]?
  | 0, _, h => absurd h (Nat.not_lt_zero _)
  | n + 1, 0, _ => by
    rw [List.replicate_succ, List.flatten_cons, Nat.zero_mul, Nat.zero_add, List.getElem?_append_left hj]
  | n + 1, q + 1, h => by
    rw [List.replicate_succ, List.flatten_cons, Nat.succ_mul, List.getElem?_append_right (by omega),
      show q * r.length + r.length + j - r.length = q * r.length + j by omega]
    exact getElem?_flatten_replicate r j hj n q (by omega)

/-- Byte `j` of record `q` of the shadow buffer install writes: 0x02 in the high byte of attr0, else 0. -/
theorem installShadow_byte (q j : Nat) (hq : q < 128) (hj : j < 8) :
    installShadow[q * 8 + j]?.getD 0#8 = if j = 1 then 0x02#8 else 0x00#8 := by
  have h : installShadow[q * 8 + j]? = installRecord[j]? := by
    rw [← Vector.getElem?_toList]
    exact getElem?_flatten_replicate installRecord j hj 128 q hq
  rw [h]
  clear h hq
  revert j
  decide

/-- OAM after install is the shadow buffer install writes. -/
theorem read_installMemory_oam {m : Memory} (hm : m.wf = true) (d : Half) {k : Nat} (hk : k < 1024) :
    (installMemory d m).read (Config.oamBase + k) = installShadow[k]?.getD 0#8 := by
  rw [installMemory, read_writeRun (wf_writeHalf hm _ d (by decide)) _ _ _ (by simp), if_pos (by simp; omega),
    Nat.add_sub_cancel_left, List.getD_eq_getElem?_getD, Vector.getElem?_toList]

theorem length_leBytes : ∀ (n v : Nat), (leBytes n v).length = n
  | 0, _ => rfl
  | n + 1, v => by simp [leBytes, length_leBytes n]

end Sys2Proof.Machine
end

