-- ==== Sys2Proof/Laws/Operands.lean ====
section
/-! SUPPORT. What the operand tests and the computed values come to, in plain arithmetic. -/

namespace Sys2Proof.Machine

theorem inRange_iff (w : Word) (n : Nat) : inRange w n = true ↔ 0 ≤ w.toInt ∧ w.toInt < (n : Int) := by
  simp [inRange]

theorem isNegative_iff (w : Word) : isNegative w = true ↔ w.toInt < 0 := by
  simp [isNegative]

theorem operandNat_cast {w : Word} (h : 0 ≤ w.toInt) : (operandNat w : Int) = w.toInt := Int.toNat_of_nonneg h

theorem operandNat_lt {w : Word} {n : Nat} (h : inRange w n = true) : operandNat w < n := by
  have h' := (inRange_iff w n).1 h
  have hc := operandNat_cast h'.1
  omega

theorem onScreen_iff (x y : Word) :
    onScreen x y = true ↔ (0 ≤ x.toInt ∧ x.toInt < 240) ∧ (0 ≤ y.toInt ∧ y.toInt < 160) := by
  simp [onScreen, inRange_iff]

theorem onScreen_lt {x y : Word} (h : onScreen x y = true) : operandNat x < 240 ∧ operandNat y < 160 := by
  have h' : inRange x 240 = true ∧ inRange y 160 = true := by simpa [onScreen] using h
  exact ⟨operandNat_lt h'.1, operandNat_lt h'.2⟩

theorem tileOverruns_iff (size : Nat) (block offset : Word) (n : Nat) :
    tileOverruns size block offset n = true ↔ (size : Int) < block.toInt * 64 + offset.toInt + (n : Int) := by
  simp [tileOverruns]

/-- A legal transfer stays inside its region. -/
theorem tileDest_bounds {base size : Nat} {block offset : Word} {n : Nat} (hb : isNegative block = false)
    (ho : isNegative offset = false) (hn : tileOverruns size block offset n = false) :
    base ≤ tileDest base block offset ∧ tileDest base block offset + n ≤ base + size := by
  have hb' : 0 ≤ block.toInt := by
    by_contra h
    exact absurd ((isNegative_iff block).2 (by omega)) (by simp [hb])
  have ho' : 0 ≤ offset.toInt := by
    by_contra h
    exact absurd ((isNegative_iff offset).2 (by omega)) (by simp [ho])
  have hn' : ¬ ((size : Int) < block.toInt * 64 + offset.toInt + (n : Int)) := fun h =>
    absurd ((tileOverruns_iff size block offset n).2 h) (by simp [hn])
  have e1 := operandNat_cast hb'
  have e2 := operandNat_cast ho'
  simp only [tileDest, Config.tileBlockBytes]
  omega

theorem packColor_toNat {r g b : Nat} (hr : r < 32) (hg : g < 32) (hb : b < 32) :
    (packColor r g b).toNat = b * 1024 + g * 32 + r := by
  have e1 : g <<< 5 ||| r = g * 32 + r := by
    rw [← Nat.shiftLeft_add_eq_or_of_lt (by omega : r < 2 ^ 5), Nat.shiftLeft_eq]
  have e2 : b <<< 10 ||| (g * 32 + r) = b * 1024 + (g * 32 + r) := by
    rw [← Nat.shiftLeft_add_eq_or_of_lt (by omega : g * 32 + r < 2 ^ 10), Nat.shiftLeft_eq]
  rw [packColor, BitVec.toNat_ofNat, Nat.lor_assoc, e1, e2, Nat.mod_eq_of_lt (by omega)]
  omega

theorem zextHalf_toNat (h : Half) : (zextHalf h).toNat = h.toNat := by
  simp only [zextHalf, BitVec.toNat_setWidth]
  omega

theorem low16_toNat (w : Word) : (low16 w).toNat = w.toNat % 2 ^ 16 := by
  simp [low16]

/-- A codec's result is bits `lo` to `lo + w - 1` of the field, right-justified. -/
theorem subField_toNat (h : Half) (lo w : Nat) : (subField h lo w).toNat = h.toNat / 2 ^ lo % 2 ^ w := by
  have e : (1 <<< w) - 1 = 2 ^ w - 1 := by rw [Nat.one_shiftLeft]
  have hlt : h.toNat / 2 ^ lo % 2 ^ w < 2 ^ 32 :=
    lt_of_le_of_lt (Nat.mod_le _ _) (lt_of_le_of_lt (Nat.div_le_self _ _) (by omega))
  rw [subField, BitVec.toNat_ofNat, e, Nat.and_two_pow_sub_one_eq_mod, Nat.shiftRight_eq_div_pow, Nat.mod_eq_of_lt hlt]

theorem paletteSlot_bounds {base i : Nat} (hi : i < 256) : base ≤ paletteSlot base i ∧ paletteSlot base i + 2 ≤ base + 512 := by
  simp only [paletteSlot]; omega

theorem m3Cell_bounds {x y : Nat} (hx : x < 240) (hy : y < 160) :
    0x06000000 ≤ m3Cell x y ∧ m3Cell x y + 2 ≤ 0x06000000 + 76800 := by
  simp only [m3Cell, Config.m3FbBase, Config.screenWidth]; omega

theorem m4Cell_bounds {page : Word} {x y : Nat} (hx : x < 240) (hy : y < 160) :
    page.toNat ≤ m4Cell page x y ∧ m4Cell page x y + 2 ≤ page.toNat + 38400 := by
  simp only [m4Cell, Config.m4RowCells]; omega

theorem fieldOffset_bounds {i f : Nat} (hi : i < 128) (hf : f < 3) : fieldOffset i f + 2 ≤ 1024 := by
  simp only [fieldOffset, Config.recordStride]; omega

/-- The lanes of a cell after one index has replaced its own (42_framebuffer.md R84, R85). -/
theorem m4Lanes (x p : Nat) (hp : p < 256) (old : Half) :
    (((old &&& m4Keep x) ||| m4Lane x p).extractLsb' 0 8 = if x % 2 = 1 then old.extractLsb' 0 8 else BitVec.ofNat 8 p) ∧
    (((old &&& m4Keep x) ||| m4Lane x p).extractLsb' 8 8 = if x % 2 = 1 then BitVec.ofNat 8 p else old.extractLsb' 8 8) := by
  have hlo : ∀ i, i < 8 → Nat.testBit 255 i = true := by decide
  have hhi : ∀ i, i < 8 → Nat.testBit 255 (8 + i) = false := by decide
  have klo : ∀ i, i < 8 → Nat.testBit 65280 i = false := by decide
  have khi : ∀ i, i < 8 → Nat.testBit 65280 (8 + i) = true := by decide
  have pz : ∀ i, p.testBit (8 + i) = false := fun i =>
    Nat.testBit_lt_two_pow (lt_of_lt_of_le hp (by rw [show 256 = 2 ^ 8 by rfl]; exact Nat.pow_le_pow_right (by omega) (by omega)))
  by_cases hx : x % 2 = 1
  · simp only [m4Keep, m4Lane, hx, if_true]
    constructor <;> apply BitVec.eq_of_getLsbD_eq <;> intro i hi <;>
      simp only [BitVec.getLsbD_extractLsb', BitVec.getLsbD_or, BitVec.getLsbD_and, BitVec.getLsbD_ofNat,
        Nat.testBit_shiftLeft, Nat.zero_add]
    · simp [hlo i hi, hi, show ¬ (8 ≤ i) by omega, show i < 16 by omega]
    · simp [hhi i hi, hi, show 8 + i < 16 by omega]
  · simp only [m4Keep, m4Lane, hx, if_false]
    constructor <;> apply BitVec.eq_of_getLsbD_eq <;> intro i hi <;>
      simp only [BitVec.getLsbD_extractLsb', BitVec.getLsbD_or, BitVec.getLsbD_and, BitVec.getLsbD_ofNat, Nat.zero_add]
    · simp [klo i hi, hi, show i < 16 by omega]
    · simp [khi i hi, hi, pz i, show 8 + i < 16 by omega]

end Sys2Proof.Machine
end

