-- ==== Sys2Proof/Laws/State.lean ====
section
/-! SUPPORT. One lemma per field per state update, true by rfl, so that no later proof unfolds a record update. -/

namespace Sys2Proof.Machine

@[simp] theorem raised_sh (s : State) (c : Cause) : (s.raised c).sh = s.sh := rfl
@[simp] theorem raised_dt (s : State) (c : Cause) : (s.raised c).dt = s.dt := rfl
@[simp] theorem raised_pc (s : State) (c : Cause) : (s.raised c).pc = s.pc := rfl
@[simp] theorem raised_fault (s : State) (c : Cause) : (s.raised c).fault = some c := rfl
@[simp] theorem raised_resp (s : State) (c : Cause) : (s.raised c).resp = s.resp := rfl
@[simp] theorem raised_mem (s : State) (c : Cause) : (s.raised c).mem = s.mem := rfl
@[simp] theorem raised_stream (s : State) (c : Cause) : (s.raised c).stream = s.stream := rfl
@[simp] theorem raised_hostWrites (s : State) (c : Cause) : (s.raised c).hostWrites = s.hostWrites := rfl
@[simp] theorem raised_draws (s : State) (c : Cause) : (s.raised c).draws = s.draws := rfl

@[simp] theorem advance_sh (s : State) : (s.advance).sh = s.sh := rfl
@[simp] theorem advance_dt (s : State) : (s.advance).dt = s.dt := rfl
@[simp] theorem advance_pc (s : State) : (s.advance).pc = s.pc + 1 := rfl
@[simp] theorem advance_fault (s : State) : (s.advance).fault = s.fault := rfl
@[simp] theorem advance_resp (s : State) : (s.advance).resp = s.resp := rfl
@[simp] theorem advance_mem (s : State) : (s.advance).mem = s.mem := rfl
@[simp] theorem advance_stream (s : State) : (s.advance).stream = s.stream := rfl
@[simp] theorem advance_hostWrites (s : State) : (s.advance).hostWrites = s.hostWrites := rfl
@[simp] theorem advance_draws (s : State) : (s.advance).draws = s.draws := rfl

@[simp] theorem respond_sh (s : State) (v : Word) : (s.respond v).sh = s.sh := rfl
@[simp] theorem respond_dt (s : State) (v : Word) : (s.respond v).dt = s.dt := rfl
@[simp] theorem respond_pc (s : State) (v : Word) : (s.respond v).pc = s.pc := rfl
@[simp] theorem respond_fault (s : State) (v : Word) : (s.respond v).fault = s.fault := rfl
@[simp] theorem respond_resp (s : State) (v : Word) : (s.respond v).resp = s.resp ++ [v] := rfl
@[simp] theorem respond_mem (s : State) (v : Word) : (s.respond v).mem = s.mem := rfl
@[simp] theorem respond_stream (s : State) (v : Word) : (s.respond v).stream = s.stream := rfl
@[simp] theorem respond_hostWrites (s : State) (v : Word) : (s.respond v).hostWrites = s.hostWrites := rfl
@[simp] theorem respond_draws (s : State) (v : Word) : (s.respond v).draws = s.draws := rfl

@[simp] theorem respondFree_sh (s : State) : (s.respondFree).sh = s.sh := rfl
@[simp] theorem respondFree_dt (s : State) : (s.respondFree).dt = s.dt := rfl
@[simp] theorem respondFree_pc (s : State) : (s.respondFree).pc = s.pc := rfl
@[simp] theorem respondFree_fault (s : State) : (s.respondFree).fault = s.fault := rfl
@[simp] theorem respondFree_resp (s : State) : (s.respondFree).resp = s.resp ++ [Config.freeDraw s.draws] := rfl
@[simp] theorem respondFree_mem (s : State) : (s.respondFree).mem = s.mem := rfl
@[simp] theorem respondFree_stream (s : State) : (s.respondFree).stream = s.stream := rfl
@[simp] theorem respondFree_hostWrites (s : State) : (s.respondFree).hostWrites = s.hostWrites := rfl
@[simp] theorem respondFree_draws (s : State) : (s.respondFree).draws = s.draws + 1 := rfl

@[simp] theorem writeBytes_sh (s : State) (a : Nat) (bs : List Byte) : (s.writeBytes a bs).sh = s.sh := rfl
@[simp] theorem writeBytes_dt (s : State) (a : Nat) (bs : List Byte) : (s.writeBytes a bs).dt = s.dt := rfl
@[simp] theorem writeBytes_pc (s : State) (a : Nat) (bs : List Byte) : (s.writeBytes a bs).pc = s.pc := rfl
@[simp] theorem writeBytes_fault (s : State) (a : Nat) (bs : List Byte) : (s.writeBytes a bs).fault = s.fault := rfl
@[simp] theorem writeBytes_resp (s : State) (a : Nat) (bs : List Byte) : (s.writeBytes a bs).resp = s.resp := rfl
@[simp] theorem writeBytes_mem (s : State) (a : Nat) (bs : List Byte) : (s.writeBytes a bs).mem = s.mem.writeRun a bs := rfl
@[simp] theorem writeBytes_stream (s : State) (a : Nat) (bs : List Byte) : (s.writeBytes a bs).stream = s.stream := rfl
@[simp] theorem writeBytes_hostWrites (s : State) (a : Nat) (bs : List Byte) : (s.writeBytes a bs).hostWrites = s.hostWrites := rfl
@[simp] theorem writeBytes_draws (s : State) (a : Nat) (bs : List Byte) : (s.writeBytes a bs).draws = s.draws := rfl

@[simp] theorem writeHalf_sh (s : State) (a : Nat) (v : Half) : (s.writeHalf a v).sh = s.sh := rfl
@[simp] theorem writeHalf_dt (s : State) (a : Nat) (v : Half) : (s.writeHalf a v).dt = s.dt := rfl
@[simp] theorem writeHalf_pc (s : State) (a : Nat) (v : Half) : (s.writeHalf a v).pc = s.pc := rfl
@[simp] theorem writeHalf_fault (s : State) (a : Nat) (v : Half) : (s.writeHalf a v).fault = s.fault := rfl
@[simp] theorem writeHalf_resp (s : State) (a : Nat) (v : Half) : (s.writeHalf a v).resp = s.resp := rfl
@[simp] theorem writeHalf_mem (s : State) (a : Nat) (v : Half) : (s.writeHalf a v).mem = s.mem.writeHalf a v := rfl
@[simp] theorem writeHalf_stream (s : State) (a : Nat) (v : Half) : (s.writeHalf a v).stream = s.stream := rfl
@[simp] theorem writeHalf_hostWrites (s : State) (a : Nat) (v : Half) : (s.writeHalf a v).hostWrites = s.hostWrites := rfl
@[simp] theorem writeHalf_draws (s : State) (a : Nat) (v : Half) : (s.writeHalf a v).draws = s.draws := rfl

@[simp] theorem shWrite_sh (s : State) (off : Nat) (v : Half) : (s.shWrite off v).sh = (s.sh.setIfInBounds off (v.extractLsb' 0 8)).setIfInBounds (off + 1) (v.extractLsb' 8 8) := rfl
@[simp] theorem shWrite_dt (s : State) (off : Nat) (v : Half) : (s.shWrite off v).dt = s.dt := rfl
@[simp] theorem shWrite_pc (s : State) (off : Nat) (v : Half) : (s.shWrite off v).pc = s.pc := rfl
@[simp] theorem shWrite_fault (s : State) (off : Nat) (v : Half) : (s.shWrite off v).fault = s.fault := rfl
@[simp] theorem shWrite_resp (s : State) (off : Nat) (v : Half) : (s.shWrite off v).resp = s.resp := rfl
@[simp] theorem shWrite_mem (s : State) (off : Nat) (v : Half) : (s.shWrite off v).mem = s.mem := rfl
@[simp] theorem shWrite_stream (s : State) (off : Nat) (v : Half) : (s.shWrite off v).stream = s.stream := rfl
@[simp] theorem shWrite_hostWrites (s : State) (off : Nat) (v : Half) : (s.shWrite off v).hostWrites = s.hostWrites := rfl
@[simp] theorem shWrite_draws (s : State) (off : Nat) (v : Half) : (s.shWrite off v).draws = s.draws := rfl

@[simp] theorem setDt_sh (s : State) (v : Word) : (s.setDt v).sh = s.sh := rfl
@[simp] theorem setDt_dt (s : State) (v : Word) : (s.setDt v).dt = v := rfl
@[simp] theorem setDt_pc (s : State) (v : Word) : (s.setDt v).pc = s.pc := rfl
@[simp] theorem setDt_fault (s : State) (v : Word) : (s.setDt v).fault = s.fault := rfl
@[simp] theorem setDt_resp (s : State) (v : Word) : (s.setDt v).resp = s.resp := rfl
@[simp] theorem setDt_mem (s : State) (v : Word) : (s.setDt v).mem = s.mem := rfl
@[simp] theorem setDt_stream (s : State) (v : Word) : (s.setDt v).stream = s.stream := rfl
@[simp] theorem setDt_hostWrites (s : State) (v : Word) : (s.setDt v).hostWrites = s.hostWrites := rfl
@[simp] theorem setDt_draws (s : State) (v : Word) : (s.setDt v).draws = s.draws := rfl

@[simp] theorem tileCopy_sh (s : State) (d : Nat) (bs : List Byte) : (s.tileCopy d bs).sh = s.sh := rfl
@[simp] theorem tileCopy_dt (s : State) (d : Nat) (bs : List Byte) : (s.tileCopy d bs).dt = s.dt := rfl
@[simp] theorem tileCopy_pc (s : State) (d : Nat) (bs : List Byte) : (s.tileCopy d bs).pc = s.pc := rfl
@[simp] theorem tileCopy_fault (s : State) (d : Nat) (bs : List Byte) : (s.tileCopy d bs).fault = s.fault := rfl
@[simp] theorem tileCopy_resp (s : State) (d : Nat) (bs : List Byte) : (s.tileCopy d bs).resp = s.resp := rfl
@[simp] theorem tileCopy_mem (s : State) (d : Nat) (bs : List Byte) : (s.tileCopy d bs).mem = s.mem.writeRun d bs := rfl
@[simp] theorem tileCopy_stream (s : State) (d : Nat) (bs : List Byte) : (s.tileCopy d bs).stream = s.stream := rfl
@[simp] theorem tileCopy_hostWrites (s : State) (d : Nat) (bs : List Byte) : (s.tileCopy d bs).hostWrites = s.hostWrites := rfl
@[simp] theorem tileCopy_draws (s : State) (d : Nat) (bs : List Byte) : (s.tileCopy d bs).draws = s.draws := rfl

@[simp] theorem commit_sh (s : State) : (s.commit).sh = s.sh := rfl
@[simp] theorem commit_dt (s : State) : (s.commit).dt = s.dt := rfl
@[simp] theorem commit_pc (s : State) : (s.commit).pc = s.pc := rfl
@[simp] theorem commit_fault (s : State) : (s.commit).fault = s.fault := rfl
@[simp] theorem commit_resp (s : State) : (s.commit).resp = s.resp := rfl
@[simp] theorem commit_mem (s : State) : (s.commit).mem = s.mem.writeRun Config.oamBase s.sh.toList := rfl
@[simp] theorem commit_stream (s : State) : (s.commit).stream = s.stream := rfl
@[simp] theorem commit_hostWrites (s : State) : (s.commit).hostWrites = s.hostWrites := rfl
@[simp] theorem commit_draws (s : State) : (s.commit).draws = s.draws := rfl

@[simp] theorem deliver_sh (s : State) (ws : List Word) : (s.deliver ws).sh = s.sh := rfl
@[simp] theorem deliver_dt (s : State) (ws : List Word) : (s.deliver ws).dt = s.dt := rfl
@[simp] theorem deliver_pc (s : State) (ws : List Word) : (s.deliver ws).pc = s.pc := rfl
@[simp] theorem deliver_fault (s : State) (ws : List Word) : (s.deliver ws).fault = s.fault := rfl
@[simp] theorem deliver_resp (s : State) (ws : List Word) : (s.deliver ws).resp = s.resp := rfl
@[simp] theorem deliver_mem (s : State) (ws : List Word) : (s.deliver ws).mem = s.mem := rfl
@[simp] theorem deliver_stream (s : State) (ws : List Word) : (s.deliver ws).stream = ws ++ s.stream := rfl
@[simp] theorem deliver_hostWrites (s : State) (ws : List Word) : (s.deliver ws).hostWrites = [] := rfl
@[simp] theorem deliver_draws (s : State) (ws : List Word) : (s.deliver ws).draws = s.draws := rfl

@[simp] theorem install_sh (d : Half) (m : Memory) : (State.install d m).sh = installShadow := rfl
@[simp] theorem install_dt (d : Half) (m : Memory) : (State.install d m).dt = Config.m4Page1 := rfl
@[simp] theorem install_pc (d : Half) (m : Memory) : (State.install d m).pc = 0 := rfl
@[simp] theorem install_fault (d : Half) (m : Memory) : (State.install d m).fault = none := rfl
@[simp] theorem install_resp (d : Half) (m : Memory) : (State.install d m).resp = [] := rfl
@[simp] theorem install_mem (d : Half) (m : Memory) : (State.install d m).mem = installMemory d m := rfl
@[simp] theorem install_stream (d : Half) (m : Memory) : (State.install d m).stream = [] := rfl
@[simp] theorem install_hostWrites (d : Half) (m : Memory) : (State.install d m).hostWrites = [] := rfl
@[simp] theorem install_draws (d : Half) (m : Memory) : (State.install d m).draws = 0 := rfl

/-- Using up a command's words changes the stream alone, and only when FAULT is none. -/
theorem consume_eq (rest : List Word) (t : State) :
    t.consume rest = { t with stream := if t.fault = none then rest else t.stream } := by
  obtain ⟨sh, dt, pc, fault, resp, mem, stream, hostWrites, draws⟩ := t
  cases fault <;> rfl

@[simp] theorem consume_sh (rest : List Word) (t : State) : (t.consume rest).sh = t.sh := by rw [consume_eq]

@[simp] theorem consume_dt (rest : List Word) (t : State) : (t.consume rest).dt = t.dt := by rw [consume_eq]

@[simp] theorem consume_pc (rest : List Word) (t : State) : (t.consume rest).pc = t.pc := by rw [consume_eq]

@[simp] theorem consume_fault (rest : List Word) (t : State) : (t.consume rest).fault = t.fault := by rw [consume_eq]

@[simp] theorem consume_resp (rest : List Word) (t : State) : (t.consume rest).resp = t.resp := by rw [consume_eq]

@[simp] theorem consume_mem (rest : List Word) (t : State) : (t.consume rest).mem = t.mem := by rw [consume_eq]

@[simp] theorem consume_hostWrites (rest : List Word) (t : State) : (t.consume rest).hostWrites = t.hostWrites := by rw [consume_eq]

@[simp] theorem consume_draws (rest : List Word) (t : State) : (t.consume rest).draws = t.draws := by rw [consume_eq]

end Sys2Proof.Machine
end

