-- ==== Sys2Proof/Laws/Ops.lean ====
section
/-! SUPPORT. One lemma per shared operation that says everything it can do. -/

namespace Sys2Proof.Machine

/-- Byte `k` of SH after a halfword of SH is written. -/
theorem shByte_shWrite (s : State) (off k : Nat) (v : Half) (h : off + 2 ≤ 1024) :
    (s.shWrite off v).shByte k
      = if k = off then v.extractLsb' 0 8 else if k = off + 1 then v.extractLsb' 8 8 else s.shByte k := by
  simp only [State.shByte, State.shWrite, Vector.getElem?_setIfInBounds]
  by_cases h1 : k = off + 1
  · subst h1
    have : off + 1 < 1024 := by omega
    simp [this]
  · by_cases h0 : k = off
    · subst h0
      have : k < 1024 := by omega
      simp [this]
    · simp [Ne.symm h1, Ne.symm h0, h0, h1]

/-- A field of SH just written reads back, and a halfword that shares no byte with it is unchanged. -/
theorem shRead_shWrite_same (s : State) (off : Nat) (v : Half) (h : off + 2 ≤ 1024) : (s.shWrite off v).shRead off = v := by
  rw [State.shRead, shByte_shWrite s off _ v h, shByte_shWrite s off _ v h, if_neg (by omega), if_pos rfl, if_pos rfl,
    half_of_bytes]

theorem shRead_shWrite_other (s : State) (off x : Nat) (v : Half) (h : off + 2 ≤ 1024) (hx : x + 2 ≤ off ∨ off + 2 ≤ x) :
    (s.shWrite off v).shRead x = s.shRead x := by
  rw [State.shRead, State.shRead, shByte_shWrite s off _ v h, shByte_shWrite s off _ v h, if_neg (by omega),
    if_neg (by omega), if_neg (by omega), if_neg (by omega)]

theorem getD_toList_sh (s : State) (k : Nat) : s.sh.toList.getD k 0#8 = s.shByte k := by
  simp [State.shByte, List.getD_eq_getElem?_getD]

/-- A read of console memory after the commit: OAM holds SH, every other byte is as before. -/
theorem read_commit (s : State) (hm : s.mem.wf = true) (x : Nat) :
    s.commit.mem.read x = if 0x07000000 ≤ x ∧ x < 0x07000400 then s.shByte (x - 0x07000000) else s.mem.read x := by
  rw [commit_mem, read_writeRun hm _ x _ (by simp), getD_toList_sh]
  simp

/-- RGB5 and RGB8 answer a word in every case, never fault, and change nothing but RESP, pc and the count of draws. -/
theorem packCommand_cases (limit shift : Nat) (r g b : Word) (s : State) :
    ∃ w d, packCommand limit shift r g b s = .next { s with resp := s.resp ++ [w], draws := d, pc := s.pc + 1 } := by
  unfold packCommand
  split
  · exact ⟨_, s.draws, rfl⟩
  · exact ⟨_, s.draws + 1, rfl⟩

/-- A palette command writes one slot or raises. -/
theorem paletteSet_cases (base : Nat) (index color : Word) (s : State) :
    (inRange index 256 = true ∧ paletteSet base index color s
      = .next (s.writeHalf (paletteSlot base (operandNat index)) (low16 color)).advance) ∨
    (inRange index 256 = false ∧ paletteSet base index color s = .next (s.raised .palIndexRange)) := by
  unfold paletteSet
  cases h : inRange index 256 <;> simp [complete, raiseUndefined]

/-- A tile command copies its bytes or raises one of its two causes, the negative operand first. -/
theorem tileWrite_cases (base size : Nat) (block offset : Word) (bytes : List Byte) (s : State) :
    (isNegative block = false ∧ isNegative offset = false ∧ tileOverruns size block offset bytes.length = false ∧
      tileWrite base size block offset bytes s = .next (s.tileCopy (tileDest base block offset) bytes).advance) ∨
    ((isNegative block || isNegative offset) = true ∧
      tileWrite base size block offset bytes s = .next (s.raised .tileNegative)) ∨
    ((isNegative block || isNegative offset) = false ∧ tileOverruns size block offset bytes.length = true ∧
      tileWrite base size block offset bytes s = .next (s.raised .tileOverrun)) := by
  unfold tileWrite
  cases h1 : isNegative block <;> cases h2 : isNegative offset <;>
    cases h3 : tileOverruns size block offset bytes.length <;> simp [complete, raiseUndefined]

/-- A codec appends one word or raises. -/
theorem codec_cases (f lo w : Nat) (index : Word) (s : State) :
    (inRange index 128 = true ∧
      codec f lo w index s = .next (s.respond (subField (s.oamField (operandNat index) f) lo w)).advance) ∨
    (inRange index 128 = false ∧ codec f lo w index s = .next (s.raised .oamIndexRange)) := by
  unfold codec
  cases h : inRange index 128 <;> simp [complete, raiseUndefined]

/-- M3_SET_PIXEL writes one cell or raises. -/
theorem m3SetPixel_cases (x y color : Word) (s : State) :
    (onScreen x y = true ∧
      execM3SetPixel x y color s = .next (s.writeHalf (m3Cell (operandNat x) (operandNat y)) (low16 color)).advance) ∨
    (onScreen x y = false ∧ execM3SetPixel x y color s = .next (s.raised .m3CoordRange)) := by
  unfold execM3SetPixel
  cases h : onScreen x y <;> simp [complete, raiseUndefined]

/-- M4_SET_PIXEL writes one cell, raises one of its two causes, or stops because its cell lies outside the space. -/
theorem m4SetPixel_cases (x y color : Word) (s : State) :
    (onScreen x y = true ∧ inRange color 256 = true ∧ m4Cell s.dt (operandNat x) (operandNat y) + 1 < 0x100000000 ∧
      execM4SetPixel x y color s
        = .next (s.writeHalf (m4Cell s.dt (operandNat x) (operandNat y))
            (m4NewCell (operandNat x) (operandNat color) (s.readHalf (m4Cell s.dt (operandNat x) (operandNat y))))).advance) ∨
    (onScreen x y = false ∧ execM4SetPixel x y color s = .next (s.raised .m4CoordRange)) ∨
    (onScreen x y = true ∧ inRange color 256 = false ∧ execM4SetPixel x y color s = .next (s.raised .m4ColorRange)) ∨
    (onScreen x y = true ∧ inRange color 256 = true ∧ 0x100000000 ≤ m4Cell s.dt (operandNat x) (operandNat y) + 1 ∧
      execM4SetPixel x y color s = .fault .outsideAddressSpace) := by
  unfold execM4SetPixel
  cases h1 : onScreen x y <;> cases h2 : inRange color 256 <;> simp [complete, raiseUndefined]
  by_cases h3 : m4Cell s.dt (operandNat x) (operandNat y) + 1 < 4294967296
  · simp [h3]; omega
  · simp [h3]; omega

/-- SET_ATTR writes one field of SH or raises one of its two causes, the slot first. -/
theorem setAttr_cases (index field value : Word) (s : State) :
    (inRange index 128 = true ∧ inRange field 3 = true ∧
      execSetAttr index field value s
        = .next (s.shWrite (fieldOffset (operandNat index) (operandNat field)) (low16 value)).advance) ∨
    (inRange index 128 = false ∧ execSetAttr index field value s = .next (s.raised .oamIndexRange)) ∨
    (inRange index 128 = true ∧ inRange field 3 = false ∧
      execSetAttr index field value s = .next (s.raised .attrFieldRange)) := by
  unfold execSetAttr
  cases h1 : inRange index 128 <;> cases h2 : inRange field 3 <;> simp [complete, raiseUndefined]

/-- Under a legal draw target every mode-4 cell lies inside the address space, at an even address of one of the two pages. -/
theorem m4Cell_legal {s : State} (hd : s.DrawTargetLegal) {x y : Nat} (hx : x < 240) (hy : y < 160) :
    m4Cell s.dt x y % 2 = 0 ∧ 0x06000000 ≤ m4Cell s.dt x y ∧ m4Cell s.dt x y + 2 ≤ 0x06013600 := by
  rcases hd with h | h <;> simp only [h, m4Cell, Config.m4RowCells, Config.m4Page0, Config.m4Page1, BitVec.toNat_ofNat] <;> omega

end Sys2Proof.Machine
end

