-- ==== Sys2Proof/Laws/Bus.lean ====
section
/-! SUPPORT. What a plan of halfword accesses does to memory, and that the accesses of a tile transfer and of the commit have
the effects the meanings give them. -/

namespace Sys2Proof.Machine

theorem runPlan_nil (m : Memory) : runPlan m [] = m := rfl

theorem runPlan_range_succ (m : Memory) (f : Nat → BusOp) (c : Nat) :
    runPlan m ((List.range (c + 1)).map f) = BusOp.apply (runPlan m ((List.range c).map f)) (f c) := by
  simp [List.range_succ, runPlan]

/-- The bytes of a halfword whose low byte alone is replaced. -/
theorem keepHigh_bytes (v : Half) (b : Byte) :
    ((v &&& 0xFF00#16) ||| (0#8 ++ b : Half)).extractLsb' 0 8 = b ∧
    ((v &&& 0xFF00#16) ||| (0#8 ++ b : Half)).extractLsb' 8 8 = v.extractLsb' 8 8 := by
  have klo : ∀ i, i < 8 → Nat.testBit 65280 i = false := by decide
  have khi : ∀ i, i < 8 → Nat.testBit 65280 (8 + i) = true := by decide
  constructor <;> apply BitVec.eq_of_getLsbD_eq <;> intro i hi <;>
    simp only [BitVec.getLsbD_extractLsb', BitVec.getLsbD_or, BitVec.getLsbD_and, BitVec.getLsbD_ofNat,
      BitVec.getLsbD_append, Nat.zero_add]
  · simp [klo i hi, hi]
  · simp [khi i hi, hi, show 8 + i < 16 by omega]

/-- The bytes of a halfword whose high byte alone is replaced. -/
theorem keepLow_bytes (v : Half) (b : Byte) :
    ((v &&& 0x00FF#16) ||| (b ++ 0#8 : Half)).extractLsb' 0 8 = v.extractLsb' 0 8 ∧
    ((v &&& 0x00FF#16) ||| (b ++ 0#8 : Half)).extractLsb' 8 8 = b := by
  have hlo : ∀ i, i < 8 → Nat.testBit 255 i = true := by decide
  have hhi : ∀ i, i < 8 → Nat.testBit 255 (8 + i) = false := by decide
  constructor <;> apply BitVec.eq_of_getLsbD_eq <;> intro i hi <;>
    simp only [BitVec.getLsbD_extractLsb', BitVec.getLsbD_or, BitVec.getLsbD_and, BitVec.getLsbD_ofNat,
      BitVec.getLsbD_append, Nat.zero_add]
  · simp [hlo i hi, hi, show i < 16 by omega]
  · simp [hhi i hi, hi]

theorem half_bytes_append (hi lo : Byte) :
    (hi ++ lo : Half).extractLsb' 0 8 = lo ∧ (hi ++ lo : Half).extractLsb' 8 8 = hi := by
  constructor <;> apply BitVec.eq_of_getLsbD_eq <;> intro i h <;>
    simp only [BitVec.getLsbD_extractLsb', BitVec.getLsbD_append, Nat.zero_add] <;> simp [h]

theorem readHalf_bytes (m : Memory) (a : Nat) :
    (m.readHalf a).extractLsb' 0 8 = m.read a ∧ (m.readHalf a).extractLsb' 8 8 = m.read (a + 1) := half_bytes_append _ _

/-- One access of TileCopy: each of the halfword's two bytes is the transfer's when the transfer covers it, and is kept when
not (41_tile_transfer.md R77). -/
theorem read_tileHalf {m : Memory} (hm : m.wf = true) (d h x : Nat) (bytes : List Byte) (hsp : h + 2 ≤ Config.spaceBytes) :
    (BusOp.apply m (tileHalf d bytes h)).read x
      = if (x = h ∨ x = h + 1) ∧ d ≤ x ∧ x < d + bytes.length then bytes.getD (x - d) 0#8 else m.read x := by
  have e := readHalf_bytes m h
  unfold tileHalf
  by_cases hlo : d ≤ h ∧ h < d + bytes.length <;> by_cases hhi : d ≤ h + 1 ∧ h + 1 < d + bytes.length
  · simp only [hlo, hhi, decide_true, Bool.and_self, if_true, BusOp.apply]
    rw [read_writeHalf hm h x _ hsp, (half_bytes_append _ _).1, (half_bytes_append _ _).2]
    by_cases h0 : x = h
    · subst h0; simp [hlo]
    · by_cases h1 : x = h + 1
      · subst h1; simp [hhi]
      · simp [h0, h1]
  · have hb : (decide (d ≤ h + 1) && decide (h + 1 < d + bytes.length)) = false := by
      rw [Bool.and_eq_false_iff]; simp only [decide_eq_false_iff_not]; omega
    simp only [hlo, hb, decide_true, Bool.and_self, Bool.and_false, if_true, BusOp.apply]
    simp only [Bool.false_eq_true, if_false]
    rw [read_writeHalf hm h x _ hsp, (keepHigh_bytes _ _).1, (keepHigh_bytes _ _).2, e.2]
    by_cases h0 : x = h
    · subst h0; simp [hlo]
    · by_cases h1 : x = h + 1
      · subst h1; simp [hhi]
      · simp [h0, h1]
  · have hb : (decide (d ≤ h) && decide (h < d + bytes.length)) = false := by
      rw [Bool.and_eq_false_iff]; simp only [decide_eq_false_iff_not]; omega
    simp only [hhi, hb, decide_true, Bool.and_self, Bool.false_and, if_true]
    simp only [Bool.false_eq_true, if_false, BusOp.apply]
    rw [read_writeHalf hm h x _ hsp, (keepLow_bytes _ _).1, (keepLow_bytes _ _).2, e.1]
    by_cases h0 : x = h
    · subst h0; simp [hlo]
    · by_cases h1 : x = h + 1
      · subst h1; simp [hhi]
      · simp [h0, h1]
  · have hb : (decide (d ≤ h) && decide (h < d + bytes.length)) = false := by
      rw [Bool.and_eq_false_iff]; simp only [decide_eq_false_iff_not]; omega
    have hc : (decide (d ≤ h + 1) && decide (h + 1 < d + bytes.length)) = false := by
      rw [Bool.and_eq_false_iff]; simp only [decide_eq_false_iff_not]; omega
    simp only [hb, hc, Bool.and_self, Bool.false_eq_true, if_false, BusOp.apply]
    have hkeep : ((m.readHalf h &&& 0xFFFF#16) ||| 0x0000#16) = m.readHalf h := by
      rw [BitVec.or_zero, show (0xFFFF#16) = BitVec.allOnes 16 by decide, BitVec.and_allOnes]
    rw [hkeep, read_writeHalf hm h x _ hsp, e.1, e.2]
    by_cases h0 : x = h
    · subst h0; simp [hlo]
    · by_cases h1 : x = h + 1
      · subst h1; simp [hhi]
      · simp [h0, h1]

theorem wf_apply {m : Memory} (hm : m.wf = true) (op : BusOp) (ha : op.addr + 2 ≤ Config.spaceBytes) :
    (BusOp.apply m op).wf = true := by
  cases op with
  | read a => exact hm
  | write a v => exact wf_writeHalf hm a v ha
  | merge a keep v => exact wf_writeHalf hm a _ ha
  | toggle a mask => exact wf_writeHalf hm a _ ha

theorem addr_tileHalf (d h : Nat) (bytes : List Byte) : (tileHalf d bytes h).addr = h := by
  unfold tileHalf
  cases decide (d ≤ h) <;> cases decide (h < d + bytes.length) <;> cases decide (d ≤ h + 1) <;>
    cases decide (h + 1 < d + bytes.length) <;> rfl

/-- Every access of a tile transfer writes one halfword. -/
theorem writes_tileHalf (d h : Nat) (bytes : List Byte) : (tileHalf d bytes h).writes = 1 := by
  unfold tileHalf
  cases decide (d ≤ h) <;> cases decide (h < d + bytes.length) <;> cases decide (d ≤ h + 1) <;>
    cases decide (h + 1 < d + bytes.length) <;> rfl

/-- An access of a tile transfer reads its halfword exactly when the transfer does not cover both bytes. -/
theorem reads_tileHalf (d h : Nat) (bytes : List Byte) :
    (tileHalf d bytes h).reads = if d ≤ h ∧ h + 1 < d + bytes.length then 0 else 1 := by
  by_cases h1 : d ≤ h ∧ h + 1 < d + bytes.length
  · have x2 : h < d + bytes.length := by omega
    have x3 : d ≤ h + 1 := by omega
    simp only [tileHalf, h1, x2, x3, decide_true, Bool.and_self, if_true, and_self]
    rfl
  · rw [if_neg h1]
    have hc : ¬ ((decide (d ≤ h) && decide (h < d + bytes.length)) &&
        (decide (d ≤ h + 1) && decide (h + 1 < d + bytes.length))) = true := by
      simp only [Bool.and_eq_true, decide_eq_true_eq]; omega
    simp only [tileHalf, if_neg hc]
    split_ifs <;> rfl

/-- Memory after the first `c` accesses of TileCopy: the bytes of the transfer below the next halfword are in place, and every
other byte is as before. -/
theorem tilePrefix {m : Memory} (hm : m.wf = true) (d : Nat) (bytes : List Byte) :
    ∀ c, d - d % 2 + 2 * c ≤ Config.spaceBytes →
      (runPlan m ((List.range c).map fun j => tileHalf d bytes (d - d % 2 + 2 * j))).wf = true ∧
      ∀ x, (runPlan m ((List.range c).map fun j => tileHalf d bytes (d - d % 2 + 2 * j))).read x
        = if d ≤ x ∧ x < d + bytes.length ∧ x < d - d % 2 + 2 * c then bytes.getD (x - d) 0#8 else m.read x
  | 0, _ => by
    refine ⟨hm, fun x => ?_⟩
    rw [if_neg (by omega)]
    rfl
  | c + 1, hc => by
    have ih := tilePrefix hm d bytes c (by omega)
    rw [runPlan_range_succ]
    refine ⟨wf_apply ih.1 _ (by rw [addr_tileHalf]; omega), fun x => ?_⟩
    rw [read_tileHalf ih.1 d _ x bytes (by omega), ih.2]
    by_cases h1 : (x = d - d % 2 + 2 * c ∨ x = d - d % 2 + 2 * c + 1) ∧ d ≤ x ∧ x < d + bytes.length
    · rw [if_pos h1, if_pos (by omega)]
    · rw [if_neg h1]
      by_cases h2 : d ≤ x ∧ x < d + bytes.length ∧ x < d - d % 2 + 2 * c
      · rw [if_pos h2, if_pos (by omega)]
      · rw [if_neg h2, if_neg (by omega)]

/-- The halfword accesses of TileCopy have the effect of the byte copy (41_tile_transfer.md R74, R77). -/
theorem runPlan_tilePlan {m : Memory} (hm : m.wf = true) (d : Nat) (bytes : List Byte)
    (hsp : d + bytes.length ≤ Config.spaceBytes) : runPlan m (tilePlan d bytes) = m.writeRun d bytes := by
  have hsp' : d + bytes.length ≤ 0x100000000 := hsp
  unfold tilePlan
  cases bytes with
  | nil =>
    refine memory_ext hm (wf_writeRun hm d [] hsp) fun x => ?_
    have hx : ¬ (d ≤ x ∧ x < d + ([] : List Byte).length) := by simp only [List.length_nil]; omega
    rw [read_writeRun hm d x [] hsp, if_neg hx]
    rfl
  | cons b bs =>
    simp only [List.isEmpty_cons, Bool.false_eq_true, if_false, List.length_cons] at hsp' ⊢
    have h := tilePrefix hm d (b :: bs) ((d % 2 + (bs.length + 1) + 1) / 2) (by simp only [Config.spaceBytes]; omega)
    refine memory_ext h.1 (wf_writeRun hm d _ hsp) fun x => ?_
    rw [h.2, read_writeRun hm d x _ hsp]
    simp only [List.length_cons]
    by_cases hx : d ≤ x ∧ x < d + (bs.length + 1)
    · rw [if_pos hx, if_pos (by omega)]
    · rw [if_neg hx, if_neg (by omega)]

/-- Memory after the first `c` halfword writes of the commit. -/
theorem commitPrefix (s : State) (hm : s.mem.wf = true) :
    ∀ c, c ≤ 512 →
      (runPlan s.mem ((List.range c).map fun j => BusOp.write (Config.oamBase + 2 * j) (s.shRead (2 * j)))).wf = true ∧
      ∀ x, (runPlan s.mem ((List.range c).map fun j => BusOp.write (Config.oamBase + 2 * j) (s.shRead (2 * j)))).read x
        = if Config.oamBase ≤ x ∧ x < Config.oamBase + 2 * c then s.shByte (x - Config.oamBase) else s.mem.read x
  | 0, _ => by
    refine ⟨hm, fun x => ?_⟩
    rw [if_neg (by omega)]
    rfl
  | c + 1, hc => by
    have ih := commitPrefix s hm c (by omega)
    have hsp : Config.oamBase + 2 * c + 2 ≤ Config.spaceBytes := by simp only [Config.oamBase, Config.spaceBytes]; omega
    rw [runPlan_range_succ]
    refine ⟨wf_apply ih.1 _ hsp, fun x => ?_⟩
    rw [BusOp.apply, read_writeHalf ih.1 _ x _ hsp, State.shRead, (half_bytes_append _ _).1, (half_bytes_append _ _).2, ih.2]
    by_cases h0 : x = Config.oamBase + 2 * c
    · subst h0; rw [if_pos rfl, if_pos (by omega), Nat.add_sub_cancel_left]
    · by_cases h1 : x = Config.oamBase + 2 * c + 1
      · subst h1
        rw [if_neg (by omega), if_pos rfl, if_pos (by omega),
          show Config.oamBase + 2 * c + 1 - Config.oamBase = 2 * c + 1 by omega]
      · rw [if_neg h0, if_neg h1]
        by_cases h2 : Config.oamBase ≤ x ∧ x < Config.oamBase + 2 * c
        · rw [if_pos h2, if_pos (by omega)]
        · rw [if_neg h2, if_neg (by omega)]

/-- The 512 ascending halfword writes of UPDATE_OAM have the effect of the commit (43_object_attributes.md R89). -/
theorem runPlan_commitPlan (s : State) (hm : s.mem.wf = true) : runPlan s.mem (commitPlan s) = s.commit.mem := by
  have h := commitPrefix s hm 512 (le_refl _)
  refine memory_ext h.1 (wf_writeRun hm _ _ (by simp)) fun x => ?_
  rw [read_commit s hm]
  exact h.2 x

end Sys2Proof.Machine
end

