-- ==== Sys2Proof/Laws/Decode.lean ====
section
/-! SUPPORT. What the data words of a tile command carry, and what the decoder makes of each header. -/

namespace Sys2Proof

theorem dataWords_eq (n : Nat) : dataWords n = (n + 3) / 4 := rfl

theorem length_wordBytes (w : Word) : (wordBytes w).length = 4 := rfl

theorem length_unpackWords : ∀ ws : List Word, (unpackWords ws).length = 4 * ws.length
  | [] => rfl
  | w :: ws => by
    rw [unpackWords, List.length_append, length_unpackWords ws, length_wordBytes, List.length_cons]
    omega

theorem getElem?_wordBytes (w : Word) : ∀ j, j < 4 → (wordBytes w)[j]? = some (w.extractLsb' (8 * j) 8)
  | 0, _ => rfl
  | 1, _ => rfl
  | 2, _ => rfl
  | 3, _ => rfl

/-- Byte `j` of the data words (30_encoding.md R57). -/
theorem getElem?_unpackWords : ∀ (ws : List Word) (j : Nat),
    (unpackWords ws)[j]? = (ws[j / 4]?).map fun w => w.extractLsb' (8 * (j % 4)) 8
  | [], j => by simp [unpackWords]
  | w :: ws, j => by
    rw [unpackWords]
    by_cases h : j < 4
    · rw [List.getElem?_append_left (by rw [length_wordBytes]; exact h), getElem?_wordBytes w j h,
        show j / 4 = 0 by omega, show j % 4 = j by omega]
      rfl
    · rw [List.getElem?_append_right (by rw [length_wordBytes]; omega), length_wordBytes, getElem?_unpackWords ws (j - 4),
        show j / 4 = (j - 4) / 4 + 1 by omega, show (j - 4) % 4 = j % 4 by omega, List.getElem?_cons_succ]

theorem length_packBytes (bs : List Byte) : (packBytes bs).length = dataWords bs.length := by
  induction bs using packBytes.induct with
  | case1 => rfl
  | case2 b0 => simp [packBytes, dataWords]
  | case3 b0 b1 => simp [packBytes, dataWords]
  | case4 b0 b1 b2 => simp [packBytes, dataWords]
  | case5 b0 b1 b2 b3 bs ih =>
    simp only [packBytes, List.length_cons, ih, dataWords]
    omega

theorem wordBytes_wordOfBytes (b0 b1 b2 b3 : Byte) : wordBytes (wordOfBytes b0 b1 b2 b3) = [b0, b1, b2, b3] := by
  have h0 : (wordOfBytes b0 b1 b2 b3).extractLsb' 0 8 = b0 := by
    apply BitVec.eq_of_getLsbD_eq; intro i hi
    simp only [wordOfBytes, BitVec.getLsbD_extractLsb', BitVec.getLsbD_append, Nat.zero_add]
    simp [hi]
  have h1 : (wordOfBytes b0 b1 b2 b3).extractLsb' 8 8 = b1 := by
    apply BitVec.eq_of_getLsbD_eq; intro i hi
    simp only [wordOfBytes, BitVec.getLsbD_extractLsb', BitVec.getLsbD_append]
    simp [hi]
  have h2 : (wordOfBytes b0 b1 b2 b3).extractLsb' 16 8 = b2 := by
    apply BitVec.eq_of_getLsbD_eq; intro i hi
    simp only [wordOfBytes, BitVec.getLsbD_extractLsb', BitVec.getLsbD_append]
    simp [hi, show ¬ (16 + i < 8) by omega, show 16 + i - 8 = 8 + i by omega]
  have h3 : (wordOfBytes b0 b1 b2 b3).extractLsb' 24 8 = b3 := by
    apply BitVec.eq_of_getLsbD_eq; intro i hi
    simp only [wordOfBytes, BitVec.getLsbD_extractLsb', BitVec.getLsbD_append]
    simp [hi, show ¬ (24 + i < 8) by omega, show 24 + i - 8 = 16 + i by omega, show ¬ (16 + i < 8) by omega,
      show 16 + i - 8 = 8 + i by omega]
  rw [wordBytes, h0, h1, h2, h3]

/-- Packing bytes into data words and taking them out again gives the bytes back. -/
theorem take_unpack_pack (bs : List Byte) : (unpackWords (packBytes bs)).take bs.length = bs := by
  induction bs using packBytes.induct with
  | case1 => rfl
  | case2 b0 => simp [packBytes, unpackWords, wordBytes_wordOfBytes]
  | case3 b0 b1 => simp [packBytes, unpackWords, wordBytes_wordOfBytes]
  | case4 b0 b1 b2 => simp [packBytes, unpackWords, wordBytes_wordOfBytes]
  | case5 b0 b1 b2 b3 bs ih => simp [packBytes, unpackWords, wordBytes_wordOfBytes, ih]

/-- The header of a command carries no reserved bits (30_encoding.md R60). -/
theorem headerRsv_headerOf (i : Instr) : headerRsv (headerOf i) = 0#24 := by
  cases i <;> simp only [headerOf] <;> decide

/-! What the decoder does with each legal header (30_encoding.md R60). -/

@[simp] theorem decode_rgb5 (ws : List Word) : decode (0x01#32 :: ws) = readOperands (.h3 .rgb5) ws := rfl
@[simp] theorem decode_rgb8 (ws : List Word) : decode (0x02#32 :: ws) = readOperands (.h3 .rgb8) ws := rfl
@[simp] theorem decode_bgSet (ws : List Word) : decode (0x10#32 :: ws) = readOperands (.h2 .bgSet) ws := rfl
@[simp] theorem decode_objSet (ws : List Word) : decode (0x11#32 :: ws) = readOperands (.h2 .objSet) ws := rfl
@[simp] theorem decode_bgWrite (ws : List Word) : decode (0x20#32 :: ws) = readOperands (.hd .bgWrite) ws := rfl
@[simp] theorem decode_objWrite (ws : List Word) : decode (0x21#32 :: ws) = readOperands (.hd .objWrite) ws := rfl
@[simp] theorem decode_m3SetPixel (ws : List Word) : decode (0x30#32 :: ws) = readOperands (.h3 .m3SetPixel) ws := rfl
@[simp] theorem decode_m4Flip (ws : List Word) : decode (0x40#32 :: ws) = readOperands (.h0 .m4Flip) ws := rfl
@[simp] theorem decode_m4SetPixel (ws : List Word) : decode (0x41#32 :: ws) = readOperands (.h3 .m4SetPixel) ws := rfl
@[simp] theorem decode_setAttr (ws : List Word) : decode (0x50#32 :: ws) = readOperands (.h3 .setAttr) ws := rfl
@[simp] theorem decode_updateOam (ws : List Word) : decode (0x51#32 :: ws) = readOperands (.h0 .updateOam) ws := rfl
@[simp] theorem decode_attr0Objy (ws : List Word) : decode (0x60#32 :: ws) = readOperands (.h1 .attr0Objy) ws := rfl
@[simp] theorem decode_attr1Objx (ws : List Word) : decode (0x61#32 :: ws) = readOperands (.h1 .attr1Objx) ws := rfl
@[simp] theorem decode_attr1Rot (ws : List Word) : decode (0x62#32 :: ws) = readOperands (.h1 .attr1Rot) ws := rfl
@[simp] theorem decode_attr2Priority (ws : List Word) : decode (0x63#32 :: ws) = readOperands (.h1 .attr2Priority) ws := rfl
@[simp] theorem decode_attr2Palette (ws : List Word) : decode (0x64#32 :: ws) = readOperands (.h1 .attr2Palette) ws := rfl

/-- A header without reserved bits is its opcode (30_encoding.md R60). -/
theorem header_eq_opc {h : Word} (hr : headerRsv h = 0#24) : h = (headerOpc h).setWidth 32 := by
  apply BitVec.eq_of_toNat_eq
  have h1 := congrArg BitVec.toNat hr
  simp only [headerRsv, BitVec.extractLsb'_toNat, Nat.shiftRight_eq_div_pow] at h1
  simp only [headerOpc, BitVec.toNat_setWidth, BitVec.extractLsb'_toNat, Nat.shiftRight_eq_div_pow]
  have := h.isLt
  simp at h1
  omega

/-- Reading the words of an HD command whose data words are all there. -/
theorem readOperands_hd (mk : Word → Word → List Byte → Instr) (a b n : Word) (data rest : List Word)
    (h : data.length = dataWords n.toNat) :
    readOperands (.hd mk) (a :: b :: n :: (data ++ rest)) = .command (mk a b ((unpackWords data).take n.toNat)) rest := by
  have hlen : ¬ ((data ++ rest).length < dataWords n.toNat) := by rw [List.length_append, h]; omega
  simp only [readOperands, if_neg hlen]
  rw [← h, List.take_left, List.drop_left]

/-- Everything the operand reader can do: it takes a prefix of the words or raises TRUNCATED_COMMAND. -/
theorem readOperands_cases (f : Format) (ws : List Word) :
    (∃ i rest used, readOperands f ws = .command i rest ∧ ws = used ++ rest) ∨
    readOperands f ws = .raises .truncatedCommand := by
  unfold readOperands
  split
  · exact .inl ⟨_, _, [], rfl, rfl⟩
  · exact .inl ⟨_, _, [_], rfl, rfl⟩
  · exact .inl ⟨_, _, [_, _], rfl, rfl⟩
  · exact .inl ⟨_, _, [_, _, _], rfl, rfl⟩
  · next mk a b n ws =>
    split
    · exact .inr rfl
    · exact .inl ⟨_, _, a :: b :: n :: ws.take (dataWords n.toNat), rfl, by simp⟩
  · exact .inr rfl

end Sys2Proof
end

