-- ==== Sys2Proof/Laws/Exec.lean ====
section
/-! SUPPORT. What a command and a step can do, said once. -/

namespace Sys2Proof.Machine

/-- A command completes, raises one of its own causes, or is the M4_SET_PIXEL whose cell lies outside the space. -/
theorem exec_cases (i : Instr) (s : State) :
    (∃ t, exec i s = .next t ∧ t.fault = s.fault ∧ t.pc = s.pc + 1 ∧ t.stream = s.stream ∧ t.hostWrites = s.hostWrites) ∨
    (∃ c, c ∈ causesOf i ∧ exec i s = .next (s.raised c)) ∨
    (∃ x y color, i = .m4SetPixel x y color ∧ ¬ s.DrawTargetLegal ∧ exec i s = .fault .outsideAddressSpace) := by
  cases i with
  | rgb5 r g b =>
    obtain ⟨w, d, h⟩ := packCommand_cases 32 0 r g b s
    exact .inl ⟨_, h, rfl, rfl, rfl, rfl⟩
  | rgb8 r g b =>
    obtain ⟨w, d, h⟩ := packCommand_cases 256 3 r g b s
    exact .inl ⟨_, h, rfl, rfl, rfl, rfl⟩
  | bgSet index color =>
    rcases paletteSet_cases Config.palBgBase index color s with ⟨_, h⟩ | ⟨_, h⟩
    · exact .inl ⟨_, h, rfl, rfl, rfl, rfl⟩
    · exact .inr (.inl ⟨_, by simp [causesOf], h⟩)
  | objSet index color =>
    rcases paletteSet_cases Config.palObjBase index color s with ⟨_, h⟩ | ⟨_, h⟩
    · exact .inl ⟨_, h, rfl, rfl, rfl, rfl⟩
    · exact .inr (.inl ⟨_, by simp [causesOf], h⟩)
  | bgWrite block offset bytes =>
    rcases tileWrite_cases Config.bgTileBase Config.bgTileSize block offset bytes s with ⟨_, _, _, h⟩ | ⟨_, h⟩ | ⟨_, _, h⟩
    · exact .inl ⟨_, h, rfl, rfl, rfl, rfl⟩
    · exact .inr (.inl ⟨_, by simp [causesOf], h⟩)
    · exact .inr (.inl ⟨_, by simp [causesOf], h⟩)
  | objWrite block offset bytes =>
    rcases tileWrite_cases Config.objTileBase Config.objTileSize block offset bytes s with ⟨_, _, _, h⟩ | ⟨_, h⟩ | ⟨_, _, h⟩
    · exact .inl ⟨_, h, rfl, rfl, rfl, rfl⟩
    · exact .inr (.inl ⟨_, by simp [causesOf], h⟩)
    · exact .inr (.inl ⟨_, by simp [causesOf], h⟩)
  | m3SetPixel x y color =>
    rcases m3SetPixel_cases x y color s with ⟨_, h⟩ | ⟨_, h⟩
    · exact .inl ⟨_, h, rfl, rfl, rfl, rfl⟩
    · exact .inr (.inl ⟨_, by simp [causesOf], h⟩)
  | m4Flip => exact .inl ⟨_, rfl, rfl, rfl, rfl, rfl⟩
  | m4SetPixel x y color =>
    rcases m4SetPixel_cases x y color s with ⟨_, _, _, h⟩ | ⟨_, h⟩ | ⟨_, _, h⟩ | ⟨hs, _, ha, h⟩
    · exact .inl ⟨_, h, rfl, rfl, rfl, rfl⟩
    · exact .inr (.inl ⟨_, by simp [causesOf], h⟩)
    · exact .inr (.inl ⟨_, by simp [causesOf], h⟩)
    · refine .inr (.inr ⟨x, y, color, rfl, fun hd => ?_, h⟩)
      have hb := m4Cell_legal hd (onScreen_lt hs).1 (onScreen_lt hs).2
      omega
  | setAttr index field value =>
    rcases setAttr_cases index field value s with ⟨_, _, h⟩ | ⟨_, h⟩ | ⟨_, _, h⟩
    · exact .inl ⟨_, h, rfl, rfl, rfl, rfl⟩
    · exact .inr (.inl ⟨_, by simp [causesOf], h⟩)
    · exact .inr (.inl ⟨_, by simp [causesOf], h⟩)
  | updateOam => exact .inl ⟨_, rfl, rfl, rfl, rfl, rfl⟩
  | attr0Objy index =>
    rcases codec_cases 0 0 8 index s with ⟨_, h⟩ | ⟨_, h⟩
    · exact .inl ⟨_, h, rfl, rfl, rfl, rfl⟩
    · exact .inr (.inl ⟨_, by simp [causesOf], h⟩)
  | attr1Objx index =>
    rcases codec_cases 1 0 9 index s with ⟨_, h⟩ | ⟨_, h⟩
    · exact .inl ⟨_, h, rfl, rfl, rfl, rfl⟩
    · exact .inr (.inl ⟨_, by simp [causesOf], h⟩)
  | attr1Rot index =>
    rcases codec_cases 1 9 5 index s with ⟨_, h⟩ | ⟨_, h⟩
    · exact .inl ⟨_, h, rfl, rfl, rfl, rfl⟩
    · exact .inr (.inl ⟨_, by simp [causesOf], h⟩)
  | attr2Priority index =>
    rcases codec_cases 2 10 2 index s with ⟨_, h⟩ | ⟨_, h⟩
    · exact .inl ⟨_, h, rfl, rfl, rfl, rfl⟩
    · exact .inr (.inl ⟨_, by simp [causesOf], h⟩)
  | attr2Palette index =>
    rcases codec_cases 2 12 4 index s with ⟨_, h⟩ | ⟨_, h⟩
    · exact .inl ⟨_, h, rfl, rfl, rfl, rfl⟩
    · exact .inr (.inl ⟨_, by simp [causesOf], h⟩)

/-- The bytes a command leaves in memory: those of one run of writes inside its region, or as they were. -/
theorem exec_memory {i : Instr} {s t : State} (h : exec i s = .next t) :
    t.mem = s.mem ∨ ∃ a bs, t.mem = s.mem.writeRun a bs ∧ (regionOf i s).1 ≤ a ∧
      a + bs.length ≤ (regionOf i s).1 + (regionOf i s).2 := by
  cases i with
  | rgb5 r g b =>
    obtain ⟨w, d, h'⟩ := packCommand_cases 32 0 r g b s
    obtain rfl := Host.Outcome.next.inj (h.symm.trans h'); exact .inl rfl
  | rgb8 r g b =>
    obtain ⟨w, d, h'⟩ := packCommand_cases 256 3 r g b s
    obtain rfl := Host.Outcome.next.inj (h.symm.trans h'); exact .inl rfl
  | bgSet index color =>
    rcases paletteSet_cases Config.palBgBase index color s with ⟨hr, h'⟩ | ⟨_, h'⟩ <;>
      obtain rfl := Host.Outcome.next.inj (h.symm.trans h')
    · exact .inr ⟨_, halfBytes (low16 color), rfl, paletteSlot_bounds (operandNat_lt hr)⟩
    · exact .inl rfl
  | objSet index color =>
    rcases paletteSet_cases Config.palObjBase index color s with ⟨hr, h'⟩ | ⟨_, h'⟩ <;>
      obtain rfl := Host.Outcome.next.inj (h.symm.trans h')
    · exact .inr ⟨_, halfBytes (low16 color), rfl, paletteSlot_bounds (operandNat_lt hr)⟩
    · exact .inl rfl
  | bgWrite block offset bytes =>
    rcases tileWrite_cases Config.bgTileBase Config.bgTileSize block offset bytes s with ⟨hb, ho, hn, h'⟩ | ⟨_, h'⟩ | ⟨_, _, h'⟩ <;>
      obtain rfl := Host.Outcome.next.inj (h.symm.trans h')
    · exact .inr ⟨_, bytes, rfl, tileDest_bounds hb ho hn⟩
    · exact .inl rfl
    · exact .inl rfl
  | objWrite block offset bytes =>
    rcases tileWrite_cases Config.objTileBase Config.objTileSize block offset bytes s with ⟨hb, ho, hn, h'⟩ | ⟨_, h'⟩ | ⟨_, _, h'⟩ <;>
      obtain rfl := Host.Outcome.next.inj (h.symm.trans h')
    · exact .inr ⟨_, bytes, rfl, tileDest_bounds hb ho hn⟩
    · exact .inl rfl
    · exact .inl rfl
  | m3SetPixel x y color =>
    rcases m3SetPixel_cases x y color s with ⟨hs, h'⟩ | ⟨_, h'⟩ <;> obtain rfl := Host.Outcome.next.inj (h.symm.trans h')
    · exact .inr ⟨_, halfBytes (low16 color), rfl, m3Cell_bounds (onScreen_lt hs).1 (onScreen_lt hs).2⟩
    · exact .inl rfl
  | m4Flip =>
    obtain rfl := Host.Outcome.next.inj h
    exact .inr ⟨Config.dispcntAddr, halfBytes (s.dispcnt ^^^ pageMask), rfl, le_refl _, le_refl _⟩
  | m4SetPixel x y color =>
    rcases m4SetPixel_cases x y color s with ⟨hs, _, _, h'⟩ | ⟨_, h'⟩ | ⟨_, _, h'⟩ | ⟨_, _, _, h'⟩
    · obtain rfl := Host.Outcome.next.inj (h.symm.trans h')
      exact .inr ⟨_, halfBytes _, rfl, m4Cell_bounds (onScreen_lt hs).1 (onScreen_lt hs).2⟩
    · obtain rfl := Host.Outcome.next.inj (h.symm.trans h'); exact .inl rfl
    · obtain rfl := Host.Outcome.next.inj (h.symm.trans h'); exact .inl rfl
    · cases h.symm.trans h'
  | setAttr index field value =>
    rcases setAttr_cases index field value s with ⟨_, _, h'⟩ | ⟨_, h'⟩ | ⟨_, _, h'⟩ <;>
      obtain rfl := Host.Outcome.next.inj (h.symm.trans h') <;> exact .inl rfl
  | updateOam =>
    obtain rfl := Host.Outcome.next.inj h
    exact .inr ⟨Config.oamBase, s.sh.toList, rfl, le_refl _, by simp [regionOf]⟩
  | attr0Objy index =>
    rcases codec_cases 0 0 8 index s with ⟨_, h'⟩ | ⟨_, h'⟩ <;> obtain rfl := Host.Outcome.next.inj (h.symm.trans h') <;>
      exact .inl rfl
  | attr1Objx index =>
    rcases codec_cases 1 0 9 index s with ⟨_, h'⟩ | ⟨_, h'⟩ <;> obtain rfl := Host.Outcome.next.inj (h.symm.trans h') <;>
      exact .inl rfl
  | attr1Rot index =>
    rcases codec_cases 1 9 5 index s with ⟨_, h'⟩ | ⟨_, h'⟩ <;> obtain rfl := Host.Outcome.next.inj (h.symm.trans h') <;>
      exact .inl rfl
  | attr2Priority index =>
    rcases codec_cases 2 10 2 index s with ⟨_, h'⟩ | ⟨_, h'⟩ <;> obtain rfl := Host.Outcome.next.inj (h.symm.trans h') <;>
      exact .inl rfl
  | attr2Palette index =>
    rcases codec_cases 2 12 4 index s with ⟨_, h'⟩ | ⟨_, h'⟩ <;> obtain rfl := Host.Outcome.next.inj (h.symm.trans h') <;>
      exact .inl rfl

/-- SH and DT after a command: only SET_ATTR writes SH, only M4_FLIP writes DT. -/
theorem exec_blockState {i : Instr} {s t : State} (h : exec i s = .next t) :
    (t.sh = s.sh ∨ ∃ index field value, i = .setAttr index field value) ∧
    (t.dt = s.dt ∨ (i = .m4Flip ∧ t.dt = otherPage s.dt)) := by
  cases i with
  | rgb5 r g b =>
    obtain ⟨w, d, h'⟩ := packCommand_cases 32 0 r g b s
    obtain rfl := Host.Outcome.next.inj (h.symm.trans h'); exact ⟨.inl rfl, .inl rfl⟩
  | rgb8 r g b =>
    obtain ⟨w, d, h'⟩ := packCommand_cases 256 3 r g b s
    obtain rfl := Host.Outcome.next.inj (h.symm.trans h'); exact ⟨.inl rfl, .inl rfl⟩
  | bgSet index color =>
    rcases paletteSet_cases Config.palBgBase index color s with ⟨_, h'⟩ | ⟨_, h'⟩ <;>
      obtain rfl := Host.Outcome.next.inj (h.symm.trans h') <;> exact ⟨.inl rfl, .inl rfl⟩
  | objSet index color =>
    rcases paletteSet_cases Config.palObjBase index color s with ⟨_, h'⟩ | ⟨_, h'⟩ <;>
      obtain rfl := Host.Outcome.next.inj (h.symm.trans h') <;> exact ⟨.inl rfl, .inl rfl⟩
  | bgWrite block offset bytes =>
    rcases tileWrite_cases Config.bgTileBase Config.bgTileSize block offset bytes s with ⟨_, _, _, h'⟩ | ⟨_, h'⟩ | ⟨_, _, h'⟩ <;>
      obtain rfl := Host.Outcome.next.inj (h.symm.trans h') <;> exact ⟨.inl rfl, .inl rfl⟩
  | objWrite block offset bytes =>
    rcases tileWrite_cases Config.objTileBase Config.objTileSize block offset bytes s with ⟨_, _, _, h'⟩ | ⟨_, h'⟩ | ⟨_, _, h'⟩ <;>
      obtain rfl := Host.Outcome.next.inj (h.symm.trans h') <;> exact ⟨.inl rfl, .inl rfl⟩
  | m3SetPixel x y color =>
    rcases m3SetPixel_cases x y color s with ⟨_, h'⟩ | ⟨_, h'⟩ <;>
      obtain rfl := Host.Outcome.next.inj (h.symm.trans h') <;> exact ⟨.inl rfl, .inl rfl⟩
  | m4Flip => obtain rfl := Host.Outcome.next.inj h; exact ⟨.inl rfl, .inr ⟨rfl, rfl⟩⟩
  | m4SetPixel x y color =>
    rcases m4SetPixel_cases x y color s with ⟨_, _, _, h'⟩ | ⟨_, h'⟩ | ⟨_, _, h'⟩ | ⟨_, _, _, h'⟩
    · obtain rfl := Host.Outcome.next.inj (h.symm.trans h'); exact ⟨.inl rfl, .inl rfl⟩
    · obtain rfl := Host.Outcome.next.inj (h.symm.trans h'); exact ⟨.inl rfl, .inl rfl⟩
    · obtain rfl := Host.Outcome.next.inj (h.symm.trans h'); exact ⟨.inl rfl, .inl rfl⟩
    · cases h.symm.trans h'
  | setAttr index field value =>
    refine ⟨.inr ⟨_, _, _, rfl⟩, .inl ?_⟩
    rcases setAttr_cases index field value s with ⟨_, _, h'⟩ | ⟨_, h'⟩ | ⟨_, _, h'⟩ <;>
      obtain rfl := Host.Outcome.next.inj (h.symm.trans h') <;> rfl
  | updateOam => obtain rfl := Host.Outcome.next.inj h; exact ⟨.inl rfl, .inl rfl⟩
  | attr0Objy index =>
    rcases codec_cases 0 0 8 index s with ⟨_, h'⟩ | ⟨_, h'⟩ <;> obtain rfl := Host.Outcome.next.inj (h.symm.trans h') <;>
      exact ⟨.inl rfl, .inl rfl⟩
  | attr1Objx index =>
    rcases codec_cases 1 0 9 index s with ⟨_, h'⟩ | ⟨_, h'⟩ <;> obtain rfl := Host.Outcome.next.inj (h.symm.trans h') <;>
      exact ⟨.inl rfl, .inl rfl⟩
  | attr1Rot index =>
    rcases codec_cases 1 9 5 index s with ⟨_, h'⟩ | ⟨_, h'⟩ <;> obtain rfl := Host.Outcome.next.inj (h.symm.trans h') <;>
      exact ⟨.inl rfl, .inl rfl⟩
  | attr2Priority index =>
    rcases codec_cases 2 10 2 index s with ⟨_, h'⟩ | ⟨_, h'⟩ <;> obtain rfl := Host.Outcome.next.inj (h.symm.trans h') <;>
      exact ⟨.inl rfl, .inl rfl⟩
  | attr2Palette index =>
    rcases codec_cases 2 12 4 index s with ⟨_, h'⟩ | ⟨_, h'⟩ <;> obtain rfl := Host.Outcome.next.inj (h.symm.trans h') <;>
      exact ⟨.inl rfl, .inl rfl⟩

/-- A step that answers a next state makes the due host write, raises what the decoder found, or runs the decoded command. -/
theorem step_cases {s t : State} (h : step s = .next t) :
    s.fault = none ∧
    ((∃ w, s.dueHostWrite = some w ∧ w.addr.toNat % w.width.bytes = 0 ∧
        t = { s with mem := hostWriteMemory w s.mem, hostWrites := s.hostWrites.tail }) ∨
     (s.dueHostWrite = none ∧ ∃ c, s.fetch = .raises c ∧ t = s.raised c) ∨
     (s.dueHostWrite = none ∧ ∃ i rest u, s.fetch = .command i rest ∧ exec i s = .next u ∧ t = u.consume rest)) := by
  unfold step at h
  cases hf : s.fault with
  | some c => simp [hf] at h
  | none =>
    refine ⟨rfl, ?_⟩
    cases hw : s.dueHostWrite with
    | some w =>
      simp only [hf, hw, performHostWrite] at h
      split at h
      · rename_i ha
        exact .inl ⟨w, rfl, ha, (Host.Outcome.next.inj h).symm⟩
      · cases h
    | none =>
      simp only [hf, hw] at h
      cases hd : s.fetch with
      | ended => simp [hd] at h
      | raises c =>
        simp only [hd, raiseUndefined, Host.Outcome.next.injEq] at h
        exact .inr (.inl ⟨rfl, c, rfl, h.symm⟩)
      | command i rest =>
        simp only [hd] at h
        cases hx : exec i s with
        | next u =>
          simp only [hx, retire, Host.Outcome.next.injEq] at h
          exact .inr (.inr ⟨rfl, i, rest, u, rfl, hx, h.symm⟩)
        | fault r => simp [hx, retire] at h
        | refused r => simp [hx, retire] at h

/-- A host write that is aligned stays inside the address space. -/
theorem hostWrite_bounds {w : HostWrite} (h : w.addr.toNat % w.width.bytes = 0) :
    w.addr.toNat + w.width.bytes ≤ Config.spaceBytes := by
  have := w.addr.isLt
  cases hw : w.width <;> simp only [hw, Width.bytes, Config.spaceBytes] at h ⊢ <;> omega

/-- A byte of console memory after a host write. -/
theorem read_hostWriteMemory {m : Memory} (hm : m.wf = true) {w : HostWrite} (h : w.addr.toNat % w.width.bytes = 0) (x : Nat) :
    (hostWriteMemory w m).read x
      = if w.addr.toNat ≤ x ∧ x < w.addr.toNat + w.width.bytes then
          (leBytes w.width.bytes w.value.toNat).getD (x - w.addr.toNat) 0#8 else m.read x := by
  have hb := hostWrite_bounds h
  rw [hostWriteMemory, read_writeRun hm _ _ _ (by rwa [length_leBytes]), length_leBytes]

/-- A host write keeps the canonical form. -/
theorem wf_hostWriteMemory {m : Memory} (hm : m.wf = true) {w : HostWrite} (h : w.addr.toNat % w.width.bytes = 0) :
    (hostWriteMemory w m).wf = true :=
  wf_writeRun hm _ _ (by rw [length_leBytes]; exact hostWrite_bounds h)

end Sys2Proof.Machine
end

