-- ==== Sys2Proof/Laws/PerInstr.lean ====
section
/-! SUPPORT. Statements made per instruction: the number of words of every command's encoding (30_encoding.md R58). -/

namespace Sys2Proof.Laws.EncodedLength

/-- The encoding of `i` has the length 30_encoding.md R58 gives its format. -/
def Statement (i : Instr) : Prop := (encode i).length = i.words

theorem rgb5 (r g b : Word) : Statement (.rgb5 r g b) := rfl
theorem rgb8 (r g b : Word) : Statement (.rgb8 r g b) := rfl
theorem bgSet (index color : Word) : Statement (.bgSet index color) := rfl
theorem objSet (index color : Word) : Statement (.objSet index color) := rfl
theorem bgWrite (block offset : Word) (bytes : List Byte) : Statement (.bgWrite block offset bytes) := by
  simp only [Statement, encode, operandWords, List.length_cons, length_packBytes, Instr.words]; omega
theorem objWrite (block offset : Word) (bytes : List Byte) : Statement (.objWrite block offset bytes) := by
  simp only [Statement, encode, operandWords, List.length_cons, length_packBytes, Instr.words]; omega
theorem m3SetPixel (x y color : Word) : Statement (.m3SetPixel x y color) := rfl
theorem m4Flip : Statement .m4Flip := rfl
theorem m4SetPixel (x y color : Word) : Statement (.m4SetPixel x y color) := rfl
theorem setAttr (index field value : Word) : Statement (.setAttr index field value) := rfl
theorem updateOam : Statement .updateOam := rfl
theorem attr0Objy (index : Word) : Statement (.attr0Objy index) := rfl
theorem attr1Objx (index : Word) : Statement (.attr1Objx index) := rfl
theorem attr1Rot (index : Word) : Statement (.attr1Rot index) := rfl
theorem attr2Priority (index : Word) : Statement (.attr2Priority index) := rfl
theorem attr2Palette (index : Word) : Statement (.attr2Palette index) := rfl

end Sys2Proof.Laws.EncodedLength
end

