-- ==== Sys2Proof/Tests/Slice0.lean ====
section
/-! SUPPORT. The model's own tests, with results taken from spec/95_test_vectors.md (the vector is named at each), and for every
statement with hypotheses a witness that meets them. -/

namespace Sys2Proof.Machine

/-- The state after a command that answers a next state. -/
def ran (i : Instr) (s : State) : State :=
  match exec i s with
  | .next t => t
  | .fault _ => s
  | .refused _ => s

/-- Command `i` in a state whose stream holds it. -/
def holding (words : List Word) : State := State.reset.deliver words

/-- The state after a step that answers a next state. -/
def stepped (s : State) : State :=
  match step s with
  | .next t => t
  | .fault _ => s
  | .refused _ => s

/-! Well-formed terms: the one check refuses a byte list whose length fits no operand word. -/

theorem test_wellFormed_refuses_long_bgWrite (b o : Word) : ¬ (Instr.bgWrite b o (List.replicate (2 ^ 32) 0#8)).WellFormed := by
  simp only [Instr.WellFormed, Instr.wellFormed, tileBytesFit, List.length_replicate, decide_eq_true_eq, Nat.lt_irrefl,
    not_false_eq_true]

theorem test_wellFormed_refuses_long_objWrite (b o : Word) : ¬ (Instr.objWrite b o (List.replicate (2 ^ 32) 0#8)).WellFormed := by
  simp only [Instr.WellFormed, Instr.wellFormed, tileBytesFit, List.length_replicate, decide_eq_true_eq, Nat.lt_irrefl,
    not_false_eq_true]

theorem test_wellFormed_accepts_bytes : (Instr.bgWrite 0#32 0#32 [1#8, 2#8]).WellFormed := by decide

/-! Decoding: each command's words written out from 30_encoding.md R54, R56, R57 and R60. -/

theorem test_decode_rgb5 :
    decode [0b00000000000000000000000000000001#32, 31#32, 1#32, 2#32] = .command (.rgb5 31#32 1#32 2#32) [] := by decide

theorem test_decode_rgb8 :
    decode [0b00000000000000000000000000000010#32, 255#32, 128#32, 7#32] = .command (.rgb8 255#32 128#32 7#32) [] := by decide

theorem test_decode_bgSet :
    decode [0b00000000000000000000000000010000#32, 3#32, 0x0001ABCD#32] = .command (.bgSet 3#32 0x0001ABCD#32) [] := by decide

theorem test_decode_objSet :
    decode [0b00000000000000000000000000010001#32, 255#32, 0x7FFF#32] = .command (.objSet 255#32 0x7FFF#32) [] := by decide

theorem test_decode_bgWrite :
    decode [0b00000000000000000000000000100000#32, 2#32, 5#32, 5#32, 0x44332211#32, 0xFFFFFF55#32, 9#32]
      = .command (.bgWrite 2#32 5#32 [0x11#8, 0x22#8, 0x33#8, 0x44#8, 0x55#8]) [9#32] := by decide

theorem test_decode_objWrite :
    decode [0b00000000000000000000000000100001#32, 1#32, 64#32, 1#32, 0x00000099#32]
      = .command (.objWrite 1#32 64#32 [0x99#8]) [] := by decide

theorem test_decode_m3SetPixel :
    decode [0b00000000000000000000000000110000#32, 10#32, 20#32, 0x1F#32] = .command (.m3SetPixel 10#32 20#32 0x1F#32) [] := by
  decide

theorem test_decode_m4Flip : decode [0b00000000000000000000000001000000#32, 7#32] = .command .m4Flip [7#32] := by decide

theorem test_decode_m4SetPixel :
    decode [0b00000000000000000000000001000001#32, 1#32, 2#32, 3#32] = .command (.m4SetPixel 1#32 2#32 3#32) [] := by decide

theorem test_decode_setAttr :
    decode [0b00000000000000000000000001010000#32, 5#32, 1#32, 0x4064#32] = .command (.setAttr 5#32 1#32 0x4064#32) [] := by
  decide

theorem test_decode_updateOam : decode [0b00000000000000000000000001010001#32] = .command .updateOam [] := by decide

theorem test_decode_attr0Objy : decode [0b00000000000000000000000001100000#32, 5#32] = .command (.attr0Objy 5#32) [] := by decide

theorem test_decode_attr1Objx : decode [0b00000000000000000000000001100001#32, 6#32] = .command (.attr1Objx 6#32) [] := by decide

theorem test_decode_attr1Rot : decode [0b00000000000000000000000001100010#32, 7#32] = .command (.attr1Rot 7#32) [] := by decide

theorem test_decode_attr2Priority : decode [0b00000000000000000000000001100011#32, 8#32] = .command (.attr2Priority 8#32) [] := by
  decide

theorem test_decode_attr2Palette : decode [0b00000000000000000000000001100100#32, 9#32] = .command (.attr2Palette 9#32) [] := by
  decide

/-- E1, E2, E3, E4: reserved bits are tested before the opcode. -/
theorem test_decode_faults :
    decode [0x100#32] = .raises .reservedNonzero ∧ decode [0#32] = .raises .illegalOpcode ∧
    decode [0x101#32] = .raises .reservedNonzero ∧ decode [0x65#32] = .raises .illegalOpcode := by decide

/-- E5, E6, E7: a command cut off, before any operand is tested. -/
theorem test_decode_truncated :
    decode [0x10#32, 0#32] = .raises .truncatedCommand ∧
    decode [0x20#32, 0#32, 0#32, 5#32, 0x44332211#32] = .raises .truncatedCommand ∧
    decode [0x20#32, 0xFFFFFFFF#32, 0#32, 1#32] = .raises .truncatedCommand := by decide

/-- E8: an empty stream is the normal end of a run. -/
theorem test_empty_stream_ends : step State.reset = .fault .endOfRun := rfl

/-- The first step after reset runs a table word: M4_FLIP. -/
theorem test_first_step_runs_table_word : (stepped (State.reset.withFetchWord 32 0x40)).dt = 0x06000000#32 := by decide

/-- 30_encoding.md R60, R65: each mnemonic's line begins with its opcode. -/
theorem test_assemble_mnemonics :
    ["RGB5 1,2,3", "RGB8 1,2,3", "BG_SET 1,2", "OBJ_SET 1,2", "BG_WRITE 1,2,[]", "OBJ_WRITE 1,2,[3]", "M3_SET_PIXEL 1,2,3",
      "M4_FLIP"].map (fun l => (assemble l).bind List.head?)
      = [some 0x01#32, some 0x02#32, some 0x10#32, some 0x11#32, some 0x20#32, some 0x21#32, some 0x30#32, some 0x40#32] ∧
    ["M4_SET_PIXEL 1,2,3", "SET_ATTR 1,2,3", "UPDATE_OAM", "ATTR0_OBJY 1", "ATTR1_OBJX 1", "ATTR1_ROT 1", "ATTR2_PRIORITY 1",
      "ATTR2_PALETTE 1"].map (fun l => (assemble l).bind List.head?)
      = [some 0x41#32, some 0x50#32, some 0x51#32, some 0x60#32, some 0x61#32, some 0x62#32, some 0x63#32, some 0x64#32] := by
  decide +kernel

/-- A command no operand word can count has no words (log entry 9). -/
theorem test_commandWords_refuses_long (b o : Word) : commandWords (.objWrite b o (List.replicate (2 ^ 32) 0#8)) = none := by
  rw [commandWords, if_neg (test_wellFormed_refuses_long_objWrite b o)]

/-! The commands. -/

/-- C1, C6. -/
theorem test_rgb5 : (ran (.rgb5 31#32 0#32 0#32) State.reset).resp = [0x1F#32] ∧
    (ran (.rgb5 1#32 2#32 3#32) State.reset).resp = [0xC41#32] := by decide

/-- C8: no fault, pc advances. -/
theorem test_rgb5_out_of_range : (ran (.rgb5 (-1#32) 0#32 0#32) State.reset).fault = none ∧
    (ran (.rgb5 (-1#32) 0#32 0#32) State.reset).pc = 1 ∧ (ran (.rgb5 (-1#32) 0#32 0#32) State.reset).resp.length = 1 := by decide

/-- C9, C11. -/
theorem test_rgb8 : (ran (.rgb8 255#32 128#32 0#32) State.reset).resp = [0x21F#32] ∧
    (ran (.rgb8 7#32 7#32 7#32) State.reset).resp = [0#32] := by decide

/-- T3, T4: bits 31:16 are ignored, bit 15 is stored. -/
theorem test_bgSet : (ran (.bgSet 3#32 0x0001ABCD#32) State.reset).readHalf 0x05000006 = 0xABCD#16 ∧
    (ran (.bgSet 3#32 0x8001#32) State.reset).readHalf 0x05000006 = 0x8001#16 := by decide

/-- T5, T6. -/
theorem test_bgSet_faults : (ran (.bgSet 256#32 1#32) State.reset).fault = some .palIndexRange ∧
    (ran (.bgSet (-1#32) 1#32) State.reset).fault = some .palIndexRange := by decide

/-- T2, T7. -/
theorem test_objSet : (ran (.objSet 255#32 0x7FFF#32) State.reset).readHalf 0x050003FE = 0x7FFF#16 ∧
    (ran (.objSet 0#32 0x1234#32) State.reset).readHalf 0x05000200 = 0x1234#16 := by decide

/-- X2: one byte at an odd address keeps its neighbour. -/
theorem test_bgWrite : (ran (.bgWrite 2#32 5#32 [0xAA#8]) (State.reset.writeBytes 0x06000084 [0x55#8, 0x66#8])).readHalf 0x06000084
    = 0xAA55#16 := by decide

/-- X3, X4, X5: the last legal byte, one byte more, no bytes at the end of the region. -/
theorem test_bgWrite_bounds :
    (ran (.bgWrite 1023#32 63#32 [0xEE#8]) State.reset).mem.read 0x0600FFFF = 0xEE#8 ∧
    (ran (.bgWrite 1023#32 63#32 [0xEE#8, 0xEE#8]) State.reset).fault = some .tileOverrun ∧
    (ran (.bgWrite 0#32 0x10000#32 []) State.reset).pc = 1 := by decide

/-- X9. -/
theorem test_objWrite :
    let t := ran (.objWrite 0#32 3#32 [0xAA#8, 0xBB#8, 0xCC#8])
      (State.reset.writeBytes 0x06010002 [0x11#8, 0#8, 0#8, 0#8, 0x77#8])
    t.readHalf 0x06010002 = 0xAA11#16 ∧ t.readHalf 0x06010004 = 0xCCBB#16 ∧ t.readHalf 0x06010006 = 0x0077#16 := by decide

/-- X6, X7, X8. -/
theorem test_objWrite_bounds :
    (ran (.objWrite 511#32 62#32 [1#8, 2#8]) State.reset).readHalf 0x06017FFE = 0x0201#16 ∧
    (ran (.objWrite 511#32 63#32 [1#8, 2#8]) State.reset).fault = some .tileOverrun ∧
    (ran (.objWrite (-1#32) 0#32 []) State.reset).fault = some .tileNegative := by decide

/-- F1, F2. -/
theorem test_m3SetPixel : (ran (.m3SetPixel 10#32 20#32 0x1F#32) State.reset).readHalf 0x06002594 = 0x1F#16 ∧
    (ran (.m3SetPixel 239#32 159#32 0x7FFF#32) State.reset).readHalf 0x06012BFE = 0x7FFF#16 := by decide

/-- F3, F13. -/
theorem test_m3SetPixel_faults : (ran (.m3SetPixel 240#32 0#32 1#32) State.reset).fault = some .m3CoordRange ∧
    (ran (.m3SetPixel 0#32 (-1#32) 1#32) State.reset).fault = some .m3CoordRange := by decide

/-- F4: DISPCNT 0x0404 becomes 0x0414, DT page 0. -/
theorem test_m4Flip : (ran .m4Flip (State.install 0x0404#16 [])).dispcnt = 0x0414#16 ∧
    (ran .m4Flip (State.install 0x0404#16 [])).dt = 0x06000000#32 := by decide

/-- F6, F7. -/
theorem test_m4SetPixel :
    (ran (.m4SetPixel 1#32 0#32 0x34#32) (State.reset.writeHalf 0x0600A000 0x0012#16)).readHalf 0x0600A000 = 0x3412#16 ∧
    (ran (.m4SetPixel 0#32 0#32 0x56#32) (State.reset.writeHalf 0x0600A000 0x3412#16)).readHalf 0x0600A000 = 0x3456#16 := by decide

/-- F8, F9, F10, F11. -/
theorem test_m4SetPixel_bounds :
    (ran (.m4SetPixel 239#32 159#32 0xAB#32) State.reset).readHalf 0x060135FE = 0xAB00#16 ∧
    (ran (.m4SetPixel 240#32 0#32 1#32) State.reset).fault = some .m4CoordRange ∧
    (ran (.m4SetPixel 0#32 0#32 256#32) State.reset).fault = some .m4ColorRange ∧
    (ran (.m4SetPixel 300#32 0#32 256#32) State.reset).fault = some .m4CoordRange := by decide

/-- O1: SH changes, OAM does not. -/
theorem test_setAttr : (ran (.setAttr 5#32 0#32 0#32) State.reset).shRead 40 = 0#16 ∧
    (ran (.setAttr 5#32 0#32 0#32) State.reset).readHalf 0x07000028 = 0x0200#16 := by decide +kernel

/-- O4, O5, O6. -/
theorem test_setAttr_faults : (ran (.setAttr 128#32 0#32 0#32) State.reset).fault = some .oamIndexRange ∧
    (ran (.setAttr 0#32 3#32 0#32) State.reset).fault = some .attrFieldRange ∧
    (ran (.setAttr 200#32 3#32 0#32) State.reset).fault = some .oamIndexRange := by decide

/-- O2: the shadow's slot 5 reaches OAM. -/
theorem test_updateOam :
    (ran .updateOam (State.reset.shWrite 40 0#16)).readHalf 0x07000028 = 0#16 ∧
    (ran .updateOam (State.reset.shWrite 40 0#16)).readHalf 0x07000030 = 0x0200#16 := by decide +kernel

/-- O11: the filler halfword is overwritten too. -/
theorem test_updateOam_filler :
    (ran .updateOam (State.reset.writeHalf 0x07000006 0xBEEF#16)).readHalf 0x07000006 = 0#16 := by decide +kernel

/-- Slot 0 of OAM as the host leaves it in O9. -/
def oamOfO9 : State :=
  ((State.reset.writeHalf 0x07000000 0x2150#16).writeHalf 0x07000002 0xD1FF#16).writeHalf 0x07000004 0xB7FF#16

/-- O9. -/
theorem test_attr0Objy : (ran (.attr0Objy 0#32) oamOfO9).resp = [0x50#32] := by decide

theorem test_attr1Objx : (ran (.attr1Objx 0#32) oamOfO9).resp = [0x1FF#32] := by decide

theorem test_attr1Rot : (ran (.attr1Rot 0#32) oamOfO9).resp = [0x08#32] := by decide

theorem test_attr2Priority : (ran (.attr2Priority 0#32) oamOfO9).resp = [0x1#32] := by decide

theorem test_attr2Palette : (ran (.attr2Palette 0#32) oamOfO9).resp = [0xB#32] := by decide

/-- O7, O8. -/
theorem test_codec_bounds : (ran (.attr0Objy 0#32) State.reset).resp = [0#32] ∧
    (ran (.attr0Objy 128#32) State.reset).fault = some .oamIndexRange := by decide

/-- I1, I2 at the last slot, I3, I4. -/
theorem test_install :
    State.reset.readHalf 0x070003F8 = 0x0200#16 ∧ State.reset.readHalf 0x070003FA = 0#16 ∧
    State.reset.readHalf 0x070003FC = 0#16 ∧ State.reset.readHalf 0x070003FE = 0#16 ∧
    State.reset.dt = 0x0600A000#32 ∧ State.reset.pc = 0 ∧ State.reset.fault = none ∧ State.reset.resp = [] ∧
    (State.install 0x0403#16 []).dispcnt = 0x0403#16 := by decide

/-! Witnesses: states and operands that meet the hypotheses of each statement, at the boundaries of its ranges. -/

theorem witness_reset_sound : State.reset.Sound := by decide +kernel

theorem witness_reset_wf : State.reset.mem.wf = true := witness_reset_sound.1

theorem witness_reset_coupled : State.reset.Coupled := by decide +kernel

theorem witness_reset_committed : State.reset.Committed := by
  intro k hk
  rw [State.oamByte, State.reset, State.install, read_installMemory_oam rfl _ hk]
  rfl

theorem witness_TileBytesComeFromDataWords :
    ([0x44332211#32, 0x55#32] : List Word).length = ((5#32 : Word).toNat + 3) / 4 ∧
    ([] : List Word).length = ((0#32 : Word).toNat + 3) / 4 ∧ ([7#32] : List Word).length = ((4#32 : Word).toNat + 3) / 4 := by
  decide

theorem witness_CommandLengths :
    (∀ b o bs, Instr.m4Flip ≠ .bgWrite b o bs) ∧ (∀ b o bs, Instr.m4Flip ≠ .objWrite b o bs) :=
  ⟨fun _ _ _ h => (nomatch h), fun _ _ _ h => (nomatch h)⟩

theorem witness_DecodeOfEncodeIsTheCommand :
    (Instr.bgWrite 2#32 5#32 [0xAA#8]).WellFormed ∧ (Instr.objWrite 0#32 0#32 []).WellFormed ∧
    (Instr.m4SetPixel (-1#32) 0#32 256#32).WellFormed := by decide

theorem witness_DecodedWordsAreTheEncoding :
    decode [0x20#32, 2#32, 5#32, 1#32, 0x778899AA#32, 0x51#32] = .command (.bgWrite 2#32 5#32 [0xAA#8]) [0x51#32] := by decide

/-- A stream of one header in a block that is ready. -/
theorem witness_holding_ready (h : Word) : (holding [h]).Ready ∧ (holding [h]).stream = [h] := ⟨⟨rfl, rfl⟩, rfl⟩

/-- The ends of every range of illegal opcodes. -/
theorem witness_IllegalOpcodesRaise :
    ([0x00#32, 0x03#32, 0x0F#32, 0x12#32, 0x1F#32, 0x22#32, 0x2F#32, 0x31#32, 0x3F#32, 0x42#32, 0x4F#32, 0x52#32, 0x5F#32,
      0x65#32, 0xFF#32] : List Word).map (fun h => decode [h]) = List.replicate 15 (.raises .illegalOpcode) := by decide

theorem witness_ReservedHeaderBitsRaise :
    ([0x100#32, 0x151#32, 0xFFFFFFFF#32] : List Word).map (fun h => (decide (0x100 ≤ h.toNat), decode [h]))
      = List.replicate 3 (true, .raises .reservedNonzero) := by decide

theorem witness_TruncatedCommandsRaise :
    (holding [0x10#32, 0#32]).Ready ∧ (holding [0x10#32, 0#32]).stream = headerOf (.bgSet 0#32 0#32) :: [0#32] ∧
    (holding [0x10#32, 0#32]).stream.length < commandLength (holding [0x10#32, 0#32]).stream ∧
    (holding [0x20#32, 0#32, 0#32, 5#32, 1#32]).stream.length
      < commandLength (holding [0x20#32, 0#32, 0#32, 5#32, 1#32]).stream := by decide

theorem witness_EveryStopHasItsReason :
    step (State.reset.raised .tileOverrun) = .fault (.stopped .tileOverrun) ∧ State.reset.EndedNormally ∧
    step ((holding [0x41#32, 0#32, 0#32, 0#32]).setDt 0xFFFFFFFF#32) = .fault .outsideAddressSpace ∧
    step { State.reset with hostWrites := [⟨0, 0x07000001#32, .half, 0#32⟩] } = .refused .misalignedHostAccess :=
  ⟨rfl, by decide, rfl, rfl⟩

theorem witness_StepRunsDecodedCommand :
    (holding [0x40#32, 7#32]).Ready ∧ decode (holding [0x40#32, 7#32]).stream = .command .m4Flip [7#32] ∧
    (∃ t, exec .m4Flip (holding [0x40#32, 7#32]) = .next t) ∧
    exec (.m4SetPixel 0#32 0#32 0#32) (State.reset.setDt 0xFFFFFFFF#32) = .fault .outsideAddressSpace :=
  ⟨by decide, by decide, ⟨_, rfl⟩, rfl⟩

theorem witness_AssemblerExamplesAndComments : ';' ∉ "UPDATE_OAM ".toList := by decide

theorem witness_AssembledLineIsOneCommand :
    assembleLine "M4_FLIP".toList = some (encode .m4Flip) ∧ assembleLine "; nothing".toList = some [] ∧
    ("M4_FLIP", 0x40#32) ∈ mnemonicHeaders ∧ ("RGB8", 0x02#32) ∈ mnemonicHeaders ∧
    assembleLine ("RGB8".toList ++ ' ' :: "255, 128, 0".toList) = some [0x02#32, 255#32, 128#32, 0#32] := by decide

/-- Channels at both ends of their ranges, and just outside. -/
theorem witness_Rgb5RespondsPackedColor :
    ((0 ≤ (31#32 : Word).toInt ∧ (31#32 : Word).toInt < 32) ∧ (0 ≤ (0#32 : Word).toInt ∧ (0#32 : Word).toInt < 32)) ∧
    ¬ (0 ≤ (32#32 : Word).toInt ∧ (32#32 : Word).toInt < 32) ∧ ¬ (0 ≤ (-1#32 : Word).toInt ∧ (-1#32 : Word).toInt < 32) := by
  decide

theorem witness_Rgb8RespondsPackedColor :
    (0 ≤ (255#32 : Word).toInt ∧ (255#32 : Word).toInt < 256) ∧ ¬ (0 ≤ (256#32 : Word).toInt ∧ (256#32 : Word).toInt < 256) ∧
    ¬ (0 ≤ (-1#32 : Word).toInt ∧ (-1#32 : Word).toInt < 256) := by decide

theorem witness_PackedColorLanes :
    (∃ t, exec (.rgb5 31#32 0#32 31#32) State.reset = .next t) ∧ (∃ t, exec (.rgb8 255#32 0#32 248#32) State.reset = .next t) :=
  ⟨⟨_, rfl⟩, ⟨_, rfl⟩⟩

/-- Slots 0 and 255 are in range, 256 and -1 are not; reset's memory is canonical. -/
theorem witness_BgSetWritesItsSlot :
    State.reset.mem.wf = true ∧
    (0 ≤ (0#32 : Word).toInt ∧ (0#32 : Word).toInt < 256) ∧ (0 ≤ (255#32 : Word).toInt ∧ (255#32 : Word).toInt < 256) ∧
    ¬ (0 ≤ (256#32 : Word).toInt ∧ (256#32 : Word).toInt < 256) ∧ ¬ (0 ≤ (-1#32 : Word).toInt ∧ (-1#32 : Word).toInt < 256) :=
  ⟨witness_reset_wf, by decide⟩

theorem witness_ObjSetWritesItsSlot :
    State.reset.mem.wf = true ∧
    (0 ≤ (0#32 : Word).toInt ∧ (0#32 : Word).toInt < 256) ∧ (0 ≤ (255#32 : Word).toInt ∧ (255#32 : Word).toInt < 256) ∧
    ¬ (0 ≤ (256#32 : Word).toInt ∧ (256#32 : Word).toInt < 256) ∧ ¬ (0 ≤ (-1#32 : Word).toInt ∧ (-1#32 : Word).toInt < 256) :=
  witness_BgSetWritesItsSlot

theorem witness_PaletteSlotsAreIndependent :
    State.reset.mem.wf = true ∧ (0#32 : Word).toNat < 256 ∧ (255#32 : Word).toNat < 256 ∧ (0#32 : Word) ≠ 255#32 ∧ ∃ t u v, exec (.bgSet 0#32 1#32) State.reset = .next t ∧ exec (.bgSet 255#32 2#32) t = .next u ∧
      exec (.objSet 255#32 2#32) t = .next v :=
  ⟨witness_reset_wf, by decide, by decide, by decide, _, _, _, rfl, rfl, rfl⟩

theorem witness_PaletteSlotsAreIndependent_obj :
    State.reset.mem.wf = true ∧ (0#32 : Word).toNat < 256 ∧ (255#32 : Word).toNat < 256 ∧ (0#32 : Word) ≠ 255#32 ∧ ∃ t u v, exec (.objSet 0#32 1#32) State.reset = .next t ∧ exec (.objSet 255#32 2#32) t = .next u ∧
      exec (.bgSet 255#32 2#32) t = .next v :=
  ⟨witness_reset_wf, by decide, by decide, by decide, _, _, _, rfl, rfl, rfl⟩

/-- The last byte of the region is legal, one more is not; either operand negative. -/
theorem witness_BgWriteCopiesItsBytes :
    State.reset.mem.wf = true ∧ (1023#32 : Word).toInt * 64 + (63#32 : Word).toInt + (([0xEE#8] : List Byte).length : Int) ≤ 0x10000 ∧
    0x10000 < (1023#32 : Word).toInt * 64 + (63#32 : Word).toInt + (([1#8, 2#8] : List Byte).length : Int) ∧
    (0 ≤ (1023#32 : Word).toInt ∧ 0 ≤ (63#32 : Word).toInt) ∧ (-1#32 : Word).toInt < 0 ∧
    ([] : List Word).length < ((1#32 : Word).toNat + 3) / 4 :=
  ⟨witness_reset_wf, by decide⟩

theorem witness_ObjWriteCopiesItsBytes :
    State.reset.mem.wf = true ∧ (511#32 : Word).toInt * 64 + (62#32 : Word).toInt + (([1#8, 2#8] : List Byte).length : Int) ≤ 0x8000 ∧
    0x8000 < (511#32 : Word).toInt * 64 + (63#32 : Word).toInt + (([1#8, 2#8] : List Byte).length : Int) ∧
    (0 ≤ (511#32 : Word).toInt ∧ 0 ≤ (62#32 : Word).toInt) ∧ (-1#32 : Word).toInt < 0 ∧
    ([7#32] : List Word).length < ((5#32 : Word).toNat + 3) / 4 :=
  ⟨witness_reset_wf, by decide⟩

theorem witness_TileBlocksAre64Bytes :
    0 ≤ (1#32 : Word).toInt ∧ (1#32 : Word).toInt + 1 < 2 ^ 31 ∧ 64 ≤ (64#32 : Word).toInt ∧
    (0x7FFFFFFE#32 : Word).toInt + 1 < 2 ^ 31 := by decide

/-- A first half uncovered, a middle one whole, a last half uncovered. -/
theorem witness_TileCopyAccessesHalfwords :
    ([1#8, 2#8, 3#8, 4#8] : List Byte) ≠ [] ∧
    tilePlan 1 [1#8, 2#8, 3#8, 4#8] = [.merge 0 0x00FF#16 0x0100#16, .write 2 0x0302#16, .merge 4 0xFF00#16 0x0004#16] := by decide

theorem witness_M3SetPixelWritesItsCell :
    State.reset.mem.wf = true ∧
    ((0 ≤ (239#32 : Word).toInt ∧ (239#32 : Word).toInt < 240) ∧ (0 ≤ (159#32 : Word).toInt ∧ (159#32 : Word).toInt < 160)) ∧
    ¬ ((0 ≤ (240#32 : Word).toInt ∧ (240#32 : Word).toInt < 240) ∧ (0 ≤ (0#32 : Word).toInt ∧ (0#32 : Word).toInt < 160)) ∧
    ¬ ((0 ≤ (0#32 : Word).toInt ∧ (0#32 : Word).toInt < 240) ∧ (0 ≤ (-1#32 : Word).toInt ∧ (-1#32 : Word).toInt < 160)) :=
  ⟨witness_reset_wf, by decide⟩

theorem witness_M4FlipSwapsPages : State.reset.mem.wf = true := witness_reset_wf

/-- The last pixel with colour index 255; x = 240; index 256. -/
theorem witness_M4SetPixelWritesItsLane :
    State.reset.Sound ∧
    ((0 ≤ (239#32 : Word).toInt ∧ (239#32 : Word).toInt < 240) ∧ (0 ≤ (159#32 : Word).toInt ∧ (159#32 : Word).toInt < 160)) ∧
    (0 ≤ (255#32 : Word).toInt ∧ (255#32 : Word).toInt < 256) ∧
    ¬ ((0 ≤ (240#32 : Word).toInt ∧ (240#32 : Word).toInt < 240) ∧ (0 ≤ (0#32 : Word).toInt ∧ (0#32 : Word).toInt < 160)) ∧
    ¬ (0 ≤ (256#32 : Word).toInt ∧ (256#32 : Word).toInt < 256) :=
  ⟨witness_reset_sound, by decide⟩

theorem witness_M4SetPixelStopsOutsideTheSpace :
    ((0 ≤ (0#32 : Word).toInt ∧ (0#32 : Word).toInt < 240) ∧ (0 ≤ (0#32 : Word).toInt ∧ (0#32 : Word).toInt < 160)) ∧
    (0 ≤ (0#32 : Word).toInt ∧ (0#32 : Word).toInt < 256) ∧
    0x100000000 < (0xFFFFFFFF#32 : Word).toNat + 2 * ((0#32 : Word).toNat * 120 + (0#32 : Word).toNat / 2) + 2 := by decide

theorem witness_M4LanesAreIndependent :
    State.reset.Sound ∧ (0#32 : Word).toNat < 256 ∧
    (239#32 : Word).toNat < 240 ∧ (159#32 : Word).toNat < 160 ∧ (255#32 : Word).toNat < 256 ∧
    ∃ t u, exec (.m4SetPixel 239#32 159#32 255#32) State.reset = .next t ∧
      exec (.m4SetPixel (239#32 ^^^ 1#32) 159#32 0#32) t = .next u :=
  ⟨witness_reset_sound, by decide, by decide, by decide, by decide, _, _, rfl, rfl⟩

theorem witness_PlottersIgnoreDisplayMode :
    State.reset.Sound ∧ (∃ t, exec (.m3SetPixel 239#32 159#32 1#32) State.reset = .next t) ∧
    (∃ t, exec (.m4SetPixel 0#32 0#32 255#32) State.reset = .next t) :=
  ⟨witness_reset_sound, ⟨_, rfl⟩, ⟨_, rfl⟩⟩

/-- Reset, then flip after flip. -/
def flips : Nat → State
  | 0 => State.reset
  | k + 1 => ran .m4Flip (flips k)

theorem witness_FlipLaws : (flips 0).Sound ∧ ∀ k, exec .m4Flip (flips k) = .next (flips (k + 1)) :=
  ⟨witness_reset_sound, fun _ => rfl⟩

theorem witness_FlipLaws_step : State.reset.DrawTargetLegal ∧ ∃ t, step (holding [0x40#32]) = .next t :=
  ⟨by decide, _, rfl⟩

/-- Slot 127, field 2 in range; slot 128 not; field 3 not. -/
theorem witness_SetAttrReplacesOneField :
    (0 ≤ (127#32 : Word).toInt ∧ (127#32 : Word).toInt < 128) ∧ (0 ≤ (2#32 : Word).toInt ∧ (2#32 : Word).toInt < 3) ∧
    ¬ (0 ≤ (128#32 : Word).toInt ∧ (128#32 : Word).toInt < 128) ∧ ¬ (0 ≤ (3#32 : Word).toInt ∧ (3#32 : Word).toInt < 3) ∧
    State.reset.shRead ((5#32 : Word).toNat * 8 + 2 * (0#32 : Word).toNat) = (0x0200#32 : Word).setWidth 16 := by decide +kernel

theorem witness_UpdateOamCommitsAllOfSh : State.reset.mem.wf = true ∧ State.reset.Committed :=
  ⟨witness_reset_wf, witness_reset_committed⟩

theorem witness_CodecsExtractTheirFields :
    (0 ≤ (0#32 : Word).toInt ∧ (0#32 : Word).toInt < 128) ∧ (0 ≤ (127#32 : Word).toInt ∧ (127#32 : Word).toInt < 128) ∧
    ¬ (0 ≤ (128#32 : Word).toInt ∧ (128#32 : Word).toInt < 128) ∧ ¬ (0 ≤ (-1#32 : Word).toInt ∧ (-1#32 : Word).toInt < 128) := by
  decide

theorem witness_OnlyCommitAndHostWriteOam :
    (holding [0x40#32]).Sound ∧ (holding [0x40#32]).dueHostWrite = none ∧ (∀ rest, (holding [0x40#32]).fetch ≠ .command .updateOam rest) ∧
    ∃ t, step (holding [0x40#32]) = .next t :=
  ⟨witness_reset_sound, rfl, fun _ h => (nomatch h), _, rfl⟩

theorem witness_CommittedHoldsUntilBroken :
    (State.reset.mem.wf = true ∧ ∃ t, exec .updateOam State.reset = .next t) ∧
    State.Sound { State.reset with hostWrites := [⟨0, 0x07000400#32, .byte, 1#32⟩] } ∧
    State.Committed { State.reset with hostWrites := [⟨0, 0x07000400#32, .byte, 1#32⟩] } ∧
    ∃ t, step { State.reset with hostWrites := [⟨0, 0x07000400#32, .byte, 1#32⟩] } = .next t ∧ t.sh = State.reset.sh ∧
      ∀ w, State.dueHostWrite { State.reset with hostWrites := [⟨0, 0x07000400#32, .byte, 1#32⟩] } = some w →
        w.addr.toNat + w.width.bytes ≤ 0x07000000 ∨ 0x07000400 ≤ w.addr.toNat := by
  refine ⟨⟨witness_reset_wf, _, rfl⟩, witness_reset_sound, witness_reset_committed, _, rfl, rfl, ?_⟩
  intro w h
  cases h
  exact .inr (by decide)

theorem witness_CodecsSeeOnlyOam :
    isCodec (.attr1Rot 127#32) = true ∧ (∀ k, k < 1024 → State.reset.oamByte k = (State.reset.setDt 0#32).oamByte k) ∧
    ∃ t, exec (.setAttr 127#32 2#32 1#32) State.reset = .next t :=
  ⟨rfl, fun _ _ => rfl, _, rfl⟩

theorem witness_CodecsReadBackAfterCommit : State.reset.mem.wf = true ∧ (127#32 : Word).toNat < 128 :=
  ⟨witness_reset_wf, by decide⟩

theorem witness_CausesAndTheirCommands :
    State.reset.fault = none ∧ (∃ t, exec (.setAttr 0#32 3#32 0#32) State.reset = .next t ∧ t.fault = some .attrFieldRange) ∧
    decode [0x65#32] = .raises .illegalOpcode :=
  ⟨rfl, ⟨_, rfl, rfl⟩, by decide⟩

theorem witness_FaultsArePrecise :
    ∃ t, step (holding [0x10#32, 256#32, 1#32]) = .next t ∧ t.fault = some .palIndexRange := ⟨_, rfl, rfl⟩

theorem witness_FaultIsSticky :
    ∃ t, exec .m4Flip (State.reset.raised .illegalOpcode) = .next t ∧ (State.reset.raised .illegalOpcode).fault ≠ none :=
  ⟨_, rfl, by decide⟩

theorem witness_PcCountsCommands :
    (∃ t, exec .m4Flip State.reset = .next t) ∧ (∃ t, exec (.attr0Objy 128#32) State.reset = .next t ∧ t.fault ≠ none) ∧
    State.dueHostWrite { State.reset with hostWrites := [⟨0, 0#32, .byte, 1#32⟩] } ≠ none ∧
    ∃ t, step { State.reset with hostWrites := [⟨0, 0#32, .byte, 1#32⟩] } = .next t :=
  ⟨⟨_, rfl⟩, ⟨_, rfl, by decide⟩, by decide, _, rfl⟩

theorem witness_ResponsesAreCounted :
    (∃ t, exec (.attr0Objy 127#32) State.reset = .next t ∧ t.fault = none) ∧
    ∃ t, exec (.bgSet 0#32 0#32) State.reset = .next t ∧ t.fault = none := ⟨⟨_, rfl, rfl⟩, _, rfl, rfl⟩

theorem witness_BlockStateHasOneWriterEach :
    (stepped (holding [0x40#32])).dt ≠ (holding [0x40#32]).dt ∧
    (stepped (holding [0x50#32, 0#32, 1#32, 1#32])).shByte 2 ≠ (holding [0x50#32, 0#32, 1#32, 1#32]).shByte 2 := by decide +kernel

theorem witness_AccessesAreAlignedAndInRegion :
    BusOp.write 0x050001FE 7#16 ∈ busPlan (.bgSet 255#32 7#32) State.reset ∧ State.reset.DrawTargetLegal := by decide

/-- For the tile commands: the last byte of each region, an odd address. -/
theorem witness_AccessCounts :
    inRange 255#32 256 = true ∧ onScreen 239#32 159#32 = true ∧ inRange 127#32 128 = true ∧
    (0 ≤ (1023#32 : Word).toInt ∧ 0 ≤ (63#32 : Word).toInt ∧
      (1023#32 : Word).toInt * 64 + (63#32 : Word).toInt + (([0xEE#8] : List Byte).length : Int) ≤ 0x10000) ∧
    (0 ≤ (511#32 : Word).toInt ∧ (511#32 : Word).toInt * 64 + (63#32 : Word).toInt + (([0xEE#8] : List Byte).length : Int) ≤ 0x8000) ∧
    planReads (busPlan (.bgWrite 1023#32 63#32 [0xEE#8]) State.reset) = 1 := by decide

theorem witness_AccessesGiveTheMeaningsMemory :
    State.reset.Sound ∧ ∃ t, exec (.objWrite 0#32 3#32 [0xAA#8, 0xBB#8]) State.reset = .next t := ⟨witness_reset_sound, _, rfl⟩

theorem witness_DisplaySeesOldOrNewHalfword :
    State.reset.Sound ∧ (∃ t, exec (.bgWrite 0#32 1#32 [1#8, 2#8]) State.reset = .next t) ∧ 0x06000000 % 2 = 0 ∧
    (busPlan (.bgWrite 0#32 1#32 [1#8, 2#8]) State.reset).length ≤ 2 :=
  ⟨witness_reset_sound, ⟨_, rfl⟩, by decide, by decide⟩

theorem witness_CommandsAreIdempotentOnMemory :
    State.reset.Sound ∧ Instr.updateOam ≠ .m4Flip ∧ ∃ t u, exec .updateOam State.reset = .next t ∧ exec .updateOam t = .next u :=
  ⟨witness_reset_sound, by decide, _, _, rfl, rfl⟩

/-- A word at the last aligned address of the space, and a misaligned halfword. -/
theorem witness_HostWriteChangesItsBytes :
    State.reset.mem.wf = true ∧ State.reset.fault = none ∧
    State.dueHostWrite { State.reset with hostWrites := [⟨0, 0xFFFFFFFC#32, .word, 1#32⟩] } = some ⟨0, 0xFFFFFFFC#32, .word, 1#32⟩ ∧
    (0xFFFFFFFC#32 : Word).toNat % Width.word.bytes = 0 ∧ (0x07000001#32 : Word).toNat % Width.half.bytes ≠ 0 :=
  ⟨witness_reset_wf, by decide⟩

/-- The last word of the space, and a misaligned halfword. -/
theorem witness_HostReadGivesItsBytes :
    (0xFFFFFFFC#32 : Word).toNat % Width.word.bytes = 0 ∧ (0x07000001#32 : Word).toNat % Width.half.bytes ≠ 0 ∧
    State.reset.hostRead 0x07000000#32 .word = some 0x00000200#32 := by decide +kernel

theorem witness_HostPageBitChangeInvertsTheCoupling :
    State.dueHostWrite { State.reset with hostWrites := [⟨0, 0x04000000#32, .half, 0x10#32⟩] } ≠ none ∧
    (stepped { State.reset with hostWrites := [⟨0, 0x04000000#32, .half, 0x10#32⟩] }).pageBit ≠ State.reset.pageBit := by
  decide +kernel

theorem witness_CommitUndoesHostOamWrites :
    State.reset.mem.wf = true ∧ (State.reset.writeHalf 0x070003FE 1#16).mem.wf = true ∧
    ∀ x, x < 0x07000000 ∨ 0x07000400 ≤ x → (State.reset.writeHalf 0x070003FE 1#16).mem.read x = State.reset.mem.read x := by
  refine ⟨witness_reset_wf, by decide +kernel, fun x h => ?_⟩
  refine (read_writeHalf witness_reset_wf 0x070003FE x 1#16 (by decide)).trans ?_
  rw [if_neg (by omega), if_neg (by omega)]

theorem witness_InstallLeavesTheResetValues : Memory.wf [] = true ∧ Memory.wf [(0x05000000, 1#8), (0x07000000, 2#8)] = true := by
  decide

theorem witness_EveryStepKeepsSoundness : (holding [0x51#32]).Sound ∧ ∃ t, step (holding [0x51#32]) = .next t :=
  ⟨witness_reset_sound, _, rfl⟩

theorem witness_DrawTargetStaysHidden :
    (holding [0x40#32]).Sound ∧ (holding [0x40#32]).Coupled ∧ (holding [0x40#32]).dueHostWrite = none ∧
    ∃ t, step (holding [0x40#32]) = .next t := ⟨witness_reset_sound, witness_reset_coupled, rfl, _, rfl⟩

end Sys2Proof.Machine
end

section
/-! The block's state (10_state.md): what a command and a step do to it, from the case lemmas of Laws/Exec.lean. -/

namespace Sys2Proof.Machine

/-! Commands -/

/-- A command that answers a next state completes, or raises one of its causes. -/
theorem exec_next_cases {i : Instr} {s t : State} (h : exec i s = .next t) :
    (t.fault = s.fault ∧ t.pc = s.pc + 1 ∧ t.stream = s.stream ∧ t.hostWrites = s.hostWrites) ∨
    ∃ c ∈ causesOf i, t = s.raised c := by
  rcases exec_cases i s with ⟨u, hu, hframe⟩ | ⟨c, hc, hu⟩ | ⟨x, y, color, -, -, hu⟩
  · obtain rfl := Host.Outcome.next.inj (h.symm.trans hu)
    exact .inl hframe
  · exact .inr ⟨c, hc, Host.Outcome.next.inj (h.symm.trans hu)⟩
  · cases h.symm.trans hu

/-- Every command has a meaning. -/
theorem exec_ne_refused (i : Instr) (s : State) (r : Refusal) : exec i s ≠ .refused r := by
  rcases exec_cases i s with ⟨t, ht, -⟩ | ⟨c, -, ht⟩ | ⟨x, y, color, -, -, ht⟩ <;> simp [ht]

/-- An operand that is not negative is its unsigned value. -/
theorem operandNat_eq_toNat {w : Word} (h : 0 ≤ w.toInt) : operandNat w = w.toNat := by
  have hw := w.isLt
  rw [operandNat]
  rw [BitVec.toInt_eq_toNat_cond] at h ⊢
  split at h <;> omega

/-- The other page is a page, whatever DT holds. -/
theorem otherPage_legal (dt : Word) : otherPage dt = Config.m4Page0 ∨ otherPage dt = Config.m4Page1 := by
  unfold otherPage
  split
  · exact .inr rfl
  · exact .inl rfl

/-- A flip makes page 1 the draw target exactly when it was not, if DT holds a page. -/
theorem otherPage_eq_page1_iff {s : State} (hd : s.DrawTargetLegal) :
    otherPage s.dt = Config.m4Page1 ↔ ¬ s.dt = Config.m4Page1 := by
  rcases hd with h | h <;> rw [h] <;> decide

/-- No command gives DT a value that is no page (10_state.md R21). -/
theorem exec_keeps_drawTargetLegal {i : Instr} {s t : State} (hd : s.DrawTargetLegal) (h : exec i s = .next t) :
    t.DrawTargetLegal := by
  rcases (exec_blockState h).2 with hdt | ⟨-, hdt⟩ <;> rw [State.DrawTargetLegal, hdt]
  · exact hd
  · exact otherPage_legal s.dt

/-- The region of every command lies inside the address space, when DT holds a page. -/
theorem regionOf_end_le {s : State} (hd : s.DrawTargetLegal) (i : Instr) :
    (regionOf i s).1 + (regionOf i s).2 ≤ Config.spaceBytes := by
  have hdt : s.dt.toNat ≤ 0x0600A000 := by rcases hd with h | h <;> rw [h] <;> decide
  cases i <;> simp only [regionOf, Config.spaceBytes] <;> omega

/-- Only M4_FLIP's region holds a byte of DISPCNT, when DT holds a page. -/
theorem regionOf_avoids_dispcnt {s : State} (hd : s.DrawTargetLegal) {i : Instr} (hi : i ≠ .m4Flip) :
    (regionOf i s).1 + (regionOf i s).2 ≤ Config.dispcntAddr ∨ Config.dispcntAddr + 2 ≤ (regionOf i s).1 := by
  have hdt : 0x06000000 ≤ s.dt.toNat := by rcases hd with h | h <;> rw [h] <;> decide
  cases i with
  | m4Flip => exact absurd rfl hi
  | _ => simp only [regionOf, Config.dispcntAddr]; omega

/-- Every command keeps the canonical form of memory. -/
theorem exec_keeps_wf {i : Instr} {s t : State} (hs : s.Sound) (h : exec i s = .next t) : t.mem.wf = true := by
  obtain ⟨hm, hd⟩ := hs
  rcases exec_memory h with hmem | ⟨a, bs, hmem, -, hend⟩ <;> rw [hmem]
  · exact hm
  · exact wf_writeRun hm a bs (hend.trans (regionOf_end_le hd i))

/-- A command leaves every byte outside its region. -/
theorem exec_read_outside_region {i : Instr} {s t : State} (hs : s.Sound) (h : exec i s = .next t) {x : Nat}
    (hx : x < (regionOf i s).1 ∨ (regionOf i s).1 + (regionOf i s).2 ≤ x) : t.mem.read x = s.mem.read x := by
  obtain ⟨hm, hd⟩ := hs
  rcases exec_memory h with hmem | ⟨a, bs, hmem, hstart, hend⟩ <;> rw [hmem]
  rw [read_writeRun hm a x bs (hend.trans (regionOf_end_le hd i)), if_neg (by omega)]

/-- Every command but M4_FLIP leaves the page bit. -/
theorem exec_keeps_pageBit {i : Instr} {s t : State} (hs : s.Sound) (hi : i ≠ .m4Flip) (h : exec i s = .next t) :
    t.pageBit = s.pageBit := by
  have hout := regionOf_avoids_dispcnt hs.2 hi
  have hlow : t.mem.read Config.dispcntAddr = s.mem.read Config.dispcntAddr :=
    exec_read_outside_region hs h (by omega)
  have hhigh : t.mem.read (Config.dispcntAddr + 1) = s.mem.read (Config.dispcntAddr + 1) :=
    exec_read_outside_region hs h (by omega)
  simp only [State.pageBit, State.dispcnt, State.readHalf, Memory.readHalf, hlow, hhigh]

/-- M4_FLIP inverts the page bit (42_framebuffer.md R83). -/
theorem exec_m4Flip_pageBit {s t : State} (hm : s.mem.wf = true) (h : exec .m4Flip s = .next t) :
    t.pageBit = !s.pageBit := by
  obtain rfl := Host.Outcome.next.inj h
  have hnew : (s.mem.writeHalf Config.dispcntAddr (s.dispcnt ^^^ pageMask)).readHalf Config.dispcntAddr
      = s.dispcnt ^^^ pageMask := readHalf_writeHalf_same hm _ _ (by decide)
  have hmask : pageMask.getLsbD Config.pageBit = true := by decide
  simp only [State.pageBit, State.dispcnt, State.readHalf, advance_mem, setDt_mem, writeHalf_mem] at hnew ⊢
  rw [hnew, BitVec.getLsbD_xor, hmask, Bool.xor_true]

/-- M4_FLIP toggles DT on its own value (42_framebuffer.md R83). -/
theorem exec_m4Flip_dt {s t : State} (h : exec .m4Flip s = .next t) : t.dt = otherPage s.dt := by
  obtain rfl := Host.Outcome.next.inj h
  rfl

/-- The coupling depends on DT and the page bit alone. -/
theorem coupled_congr {s t : State} (hdt : t.dt = s.dt) (hbit : t.pageBit = s.pageBit) : t.Coupled ↔ s.Coupled := by
  rw [State.Coupled, State.Coupled, hdt, hbit]

/-- Every command keeps the draw target the hidden page (10_state.md R32): M4_FLIP inverts both sides, the others leave both. -/
theorem exec_keeps_coupled {i : Instr} {s t : State} (hs : s.Sound) (hc : s.Coupled) (h : exec i s = .next t) :
    t.Coupled := by
  by_cases hi : i = .m4Flip
  · subst hi
    rw [State.Coupled, exec_m4Flip_dt h, exec_m4Flip_pageBit hs.1 h, otherPage_eq_page1_iff hs.2,
      show s.dt = Config.m4Page1 ↔ s.pageBit = false from hc, Bool.not_eq_false, Bool.not_eq_false']
  · have hdt : t.dt = s.dt := (exec_blockState h).2.resolve_right fun hflip => hi hflip.1
    exact (coupled_congr hdt (exec_keeps_pageBit hs hi h)).2 hc

/-! Responses -/

theorem paletteSet_resp {base : Nat} {index color : Word} {s t : State} (h : paletteSet base index color s = .next t) :
    t.resp = s.resp := by
  rcases paletteSet_cases base index color s with ⟨-, h'⟩ | ⟨-, h'⟩ <;>
    obtain rfl := Host.Outcome.next.inj (h.symm.trans h') <;> rfl

theorem tileWrite_resp {base size : Nat} {block offset : Word} {bytes : List Byte} {s t : State}
    (h : tileWrite base size block offset bytes s = .next t) : t.resp = s.resp := by
  rcases tileWrite_cases base size block offset bytes s with ⟨-, -, -, h'⟩ | ⟨-, h'⟩ | ⟨-, -, h'⟩ <;>
    obtain rfl := Host.Outcome.next.inj (h.symm.trans h') <;> rfl

theorem m3SetPixel_resp {x y color : Word} {s t : State} (h : execM3SetPixel x y color s = .next t) : t.resp = s.resp := by
  rcases m3SetPixel_cases x y color s with ⟨-, h'⟩ | ⟨-, h'⟩ <;>
    obtain rfl := Host.Outcome.next.inj (h.symm.trans h') <;> rfl

theorem m4SetPixel_resp {x y color : Word} {s t : State} (h : execM4SetPixel x y color s = .next t) : t.resp = s.resp := by
  rcases m4SetPixel_cases x y color s with ⟨-, -, -, h'⟩ | ⟨-, h'⟩ | ⟨-, -, h'⟩ | ⟨-, -, -, h'⟩ <;>
    cases h.symm.trans h' <;> rfl

theorem setAttr_resp {index field value : Word} {s t : State} (h : execSetAttr index field value s = .next t) :
    t.resp = s.resp := by
  rcases setAttr_cases index field value s with ⟨-, -, h'⟩ | ⟨-, h'⟩ | ⟨-, -, h'⟩ <;>
    obtain rfl := Host.Outcome.next.inj (h.symm.trans h') <;> rfl

theorem packCommand_resp {limit shift : Nat} {r g b : Word} {s t : State} (h : packCommand limit shift r g b s = .next t) :
    ∃ w : Word, t.resp = s.resp ++ [w] := by
  obtain ⟨w, d, h'⟩ := packCommand_cases limit shift r g b s
  obtain rfl := Host.Outcome.next.inj (h.symm.trans h')
  exact ⟨w, rfl⟩

/-- A codec that raises nothing appends one word. -/
theorem codec_resp {f lo w : Nat} {index : Word} {s t : State} (h : codec f lo w index s = .next t) (hf : t.fault = none) :
    ∃ v : Word, t.resp = s.resp ++ [v] := by
  rcases codec_cases f lo w index s with ⟨-, h'⟩ | ⟨-, h'⟩ <;> obtain rfl := Host.Outcome.next.inj (h.symm.trans h')
  · exact ⟨_, rfl⟩
  · cases hf

/-- The response words of a command that raises nothing (10_state.md R31). -/
theorem exec_resp {i : Instr} {s t : State} (h : exec i s = .next t) (hf : t.fault = none) :
    if responds i then ∃ w : Word, t.resp = s.resp ++ [w] else t.resp = s.resp := by
  cases i with
  | rgb5 r g b => exact packCommand_resp h
  | rgb8 r g b => exact packCommand_resp h
  | bgSet index color => exact paletteSet_resp h
  | objSet index color => exact paletteSet_resp h
  | bgWrite block offset bytes => exact tileWrite_resp h
  | objWrite block offset bytes => exact tileWrite_resp h
  | m3SetPixel x y color => exact m3SetPixel_resp h
  | m4Flip => obtain rfl := Host.Outcome.next.inj h; rfl
  | m4SetPixel x y color => exact m4SetPixel_resp h
  | setAttr index field value => exact setAttr_resp h
  | updateOam => obtain rfl := Host.Outcome.next.inj h; rfl
  | attr0Objy index => exact codec_resp h hf
  | attr1Objx index => exact codec_resp h hf
  | attr1Rot index => exact codec_resp h hf
  | attr2Priority index => exact codec_resp h hf
  | attr2Palette index => exact codec_resp h hf

/-! Steps -/

/-- A step of a ready block is its command, retired. -/
theorem step_of_ready {s : State} {i : Instr} {rest : List Word} (hr : s.Ready) (hd : s.fetch = .command i rest) :
    step s = retire rest (exec i s) := by
  obtain ⟨hf, hw⟩ := hr
  simp only [step, hf, hw, hd]

/-- A step that answers a next state while a host write is due makes it, and changes nothing but memory and the queue. -/
theorem step_hostWrite_frame {s t : State} (h : step s = .next t) (hw : s.dueHostWrite ≠ none) :
    t = { s with mem := t.mem, hostWrites := s.hostWrites.tail } := by
  obtain ⟨-, ⟨w, -, -, rfl⟩ | ⟨hnone, -⟩ | ⟨hnone, -⟩⟩ := step_cases h
  · rfl
  · exact absurd hnone hw
  · exact absurd hnone hw

/-- A step with no host write due that changes SH or DT ran the command that writes it. -/
theorem step_blockState {s t : State} (h : step s = .next t) :
    (t.sh = s.sh ∨ ∃ index field value rest, s.fetch = .command (.setAttr index field value) rest ∧ s.dueHostWrite = none) ∧
    (t.dt = s.dt ∨ ∃ rest, s.fetch = .command .m4Flip rest ∧ s.dueHostWrite = none) := by
  obtain ⟨-, ⟨w, -, -, rfl⟩ | ⟨-, c, -, rfl⟩ | ⟨hw, i, rest, u, hd, hx, rfl⟩⟩ := step_cases h
  · exact ⟨.inl rfl, .inl rfl⟩
  · exact ⟨.inl rfl, .inl rfl⟩
  · obtain ⟨hsh, hdt⟩ := exec_blockState hx
    rw [consume_sh, consume_dt]
    constructor
    · refine hsh.imp_right ?_
      rintro ⟨index, field, value, rfl⟩
      exact ⟨index, field, value, rest, hd, hw⟩
    · refine hdt.imp_right ?_
      rintro ⟨rfl, -⟩
      exact ⟨rest, hd, hw⟩

/-! Install -/

/-- Byte `j` of record `q` of SH after install. -/
theorem shByte_install (d : Half) (m : Memory) {q j : Nat} (hq : q < 128) (hj : j < 8) :
    (State.install d m).shByte (q * 8 + j) = if j = 1 then 0x02#8 else 0x00#8 :=
  installShadow_byte q j hq hj

/-- The halfword at byte `j` of record `q` of SH after install: attr0 is disabled, the rest 0. -/
theorem shRead_install (d : Half) (m : Memory) {q j : Nat} (hq : q < 128) (hj : j + 1 < 8) (hne : j ≠ 1) :
    (State.install d m).shRead (q * 8 + j) = if j = 0 then 0x0200#16 else 0x0000#16 := by
  rw [State.shRead, Nat.add_assoc, shByte_install d m hq hj, shByte_install d m hq (by omega), if_neg hne]
  by_cases h0 : j = 0
  · subst h0; rfl
  · rw [if_neg (by omega), if_neg h0]; rfl

/-- OAM is committed after install. -/
theorem committed_install {m : Memory} (hm : m.wf = true) (d : Half) : (State.install d m).Committed :=
  fun _ hk => (read_installMemory_oam hm d hk).symm

/-- Outside OAM install leaves the memory it found with DISPCNT written. -/
theorem read_installMemory_outside_oam {m : Memory} (hm : m.wf = true) (d : Half) {x : Nat}
    (hx : x < 0x07000000 ∨ 0x07000400 ≤ x) :
    (installMemory d m).read x = (m.writeHalf Config.dispcntAddr d).read x := by
  rw [installMemory, read_writeRun (wf_writeHalf hm _ d (by decide)) _ _ _ (by simp), length_installShadow,
    if_neg (by simp only [Config.oamBase]; omega)]

/-- DISPCNT after install holds the value install was given. -/
theorem readHalf_installMemory_dispcnt {m : Memory} (hm : m.wf = true) (d : Half) :
    (installMemory d m).readHalf Config.dispcntAddr = d := by
  rw [Memory.readHalf, read_installMemory_outside_oam hm d (by decide), read_installMemory_outside_oam hm d (by decide)]
  exact readHalf_writeHalf_same hm _ d (by decide)

/-- A byte outside OAM and DISPCNT is after install as install found it. -/
theorem read_installMemory_elsewhere {m : Memory} (hm : m.wf = true) (d : Half) {x : Nat}
    (hreg : x < 0x04000000 ∨ 0x04000002 ≤ x) (hoam : x < 0x07000000 ∨ 0x07000400 ≤ x) :
    (installMemory d m).read x = m.read x := by
  rw [read_installMemory_outside_oam hm d hoam, read_writeHalf hm _ x d (by decide),
    if_neg (by simp only [Config.dispcntAddr]; omega), if_neg (by simp only [Config.dispcntAddr]; omega)]

/-! The statements of 10_state.md -/

/-- Settles O54: a command writes one run of bytes inside its region, and a host write is aligned. -/
theorem everyStepKeepsSoundness : Obligations.EveryStepKeepsSoundness := by
  intro s t hs h
  obtain ⟨-, ⟨w, -, halign, rfl⟩ | ⟨-, c, -, rfl⟩ | ⟨-, i, rest, u, -, hx, rfl⟩⟩ := step_cases h
  · exact ⟨wf_hostWriteMemory hs.1 halign, hs.2⟩
  · exact hs
  · rw [State.Sound, State.DrawTargetLegal, consume_mem, consume_dt]
    exact ⟨exec_keeps_wf hs hx, exec_keeps_drawTargetLegal hs.2 hx⟩

/-- Settles O55: a host write of the premise leaves DT and the page bit, and `exec_keeps_coupled` covers the commands. -/
theorem drawTargetStaysHidden : Obligations.DrawTargetStaysHidden := by
  intro s t hs hc h hhost
  obtain ⟨-, ⟨w, hw, -, rfl⟩ | ⟨-, c, -, rfl⟩ | ⟨-, i, rest, u, -, hx, rfl⟩⟩ := step_cases h
  · have hbit := hhost.resolve_left (by simp [hw])
    exact (coupled_congr (by rfl) hbit).2 hc
  · exact hc
  · have hu : u.Coupled := exec_keeps_coupled hs hc hx
    refine (coupled_congr (consume_dt rest u) ?_).2 hu
    simp only [State.pageBit, State.dispcnt, State.readHalf, consume_mem]

/-- Settles O40: a completed command keeps FAULT, a raise fills it, and a step needs it empty. -/
theorem faultIsSticky : Obligations.FaultIsSticky := by
  refine ⟨fun d m => rfl, fun c s => rfl, fun i s t h hf => ?_, fun s c hf t h => ?_⟩
  · rcases exec_next_cases h with ⟨hfault, -⟩ | ⟨c, -, rfl⟩
    · rwa [hfault]
    · exact Option.some_ne_none c
  · cases hf.symm.trans (step_cases h).1

/-- Settles O41, from what a command can do (`exec_next_cases`) and the frame of a host write. -/
theorem pcCountsCommands : Obligations.PcCountsCommands := by
  refine ⟨fun d m => rfl, fun i s t hf h => ?_, fun s t h hw => ?_⟩
  · rcases exec_next_cases h with ⟨hfault, hpc, -⟩ | ⟨c, -, rfl⟩
    · exact .inl ⟨hfault.trans hf, hpc⟩
    · exact .inr ⟨Option.some_ne_none c, rfl⟩
  · rw [step_hostWrite_frame h hw]

/-- Settles O42, command by command in `exec_resp`. -/
theorem responsesAreCounted : Obligations.ResponsesAreCounted :=
  ⟨fun _ _ => rfl, fun _ _ _ _ h hf => exec_resp h hf⟩

/-- Settles O43, from the writers of SH and DT (`step_blockState`) and the frame of a host write. -/
theorem blockStateHasOneWriterEach : Obligations.BlockStateHasOneWriterEach := fun _ _ h =>
  have hwriters := step_blockState h
  ⟨hwriters.2.resolve_left, hwriters.1.resolve_left, step_hostWrite_frame h⟩

/-- Settles O52: OAM is written after DISPCNT, from an SH of 128 equal records. -/
theorem installLeavesTheResetValues : Obligations.InstallLeavesTheResetValues := by
  intro d m hm
  refine ⟨fun i hi => ⟨?_, ?_, ?_, ?_⟩, committed_install hm d, rfl, rfl, rfl, rfl, readHalf_installMemory_dispcnt hm d,
    fun x hreg hoam => read_installMemory_elsewhere hm d hreg hoam⟩
  · exact shRead_install d m (j := 0) hi (by decide) (by decide)
  · exact shRead_install d m (j := 2) hi (by decide) (by decide)
  · exact shRead_install d m (j := 4) hi (by decide) (by decide)
  · exact shRead_install d m (j := 6) hi (by decide) (by decide)

/-- Settles O11: the step is the command's outcome, retired, and retiring takes the words off unless FAULT was set. -/
theorem stepRunsDecodedCommand : Obligations.StepRunsDecodedCommand := by
  intro s i rest hr hd
  have hstep : step s = retire rest (exec i s) := step_of_ready hr hd
  refine ⟨fun t hx => ?_, fun r hx => ?_, exec_ne_refused i s⟩
  · rw [hstep, hx, retire, consume_eq]
    split <;> rfl
  · rw [hstep, hx, retire]

/-- Settles O27: of the four cases of M4_SET_PIXEL only the stop is left. -/
theorem m4SetPixelStopsOutsideTheSpace : Obligations.M4SetPixelStopsOutsideTheSpace := by
  intro x y color s hxy hcolor hcell
  have hscreen : onScreen x y = true := (onScreen_iff x y).2 hxy
  have hrange : inRange color 256 = true := (inRange_iff color 256).2 hcolor
  have haddr : m4Cell s.dt (operandNat x) (operandNat y) = s.dt.toNat + 2 * (y.toNat * 120 + x.toNat / 2) := by
    rw [m4Cell, operandNat_eq_toNat hxy.1.1, operandNat_eq_toNat hxy.2.1]
  rcases m4SetPixel_cases x y color s with ⟨-, -, hin, -⟩ | ⟨hoff, -⟩ | ⟨-, hoff, -⟩ | ⟨-, -, -, hstop⟩
  · omega
  · cases hscreen.symm.trans hoff
  · cases hrange.symm.trans hoff
  · exact hstop

end Sys2Proof.Machine
end

section
/-! Memory and ordering (20_memory.md): the halfword accesses of a command, and the reads and writes of the host. -/

namespace Sys2Proof.Machine

/-! Where the accesses of a command lie -/

/-- Every access of the plan is at an even address, and both its bytes lie among the `n` bytes at `lo`. -/
abbrev PlanWithin (lo n : Nat) (plan : List BusOp) : Prop :=
  ∀ op ∈ plan, op.addr % 2 = 0 ∧ lo ≤ op.addr ∧ op.addr + 2 ≤ lo + n

theorem planWithin_nil (lo n : Nat) : PlanWithin lo n [] := List.forall_mem_nil _

theorem planWithin_singleton {lo n : Nat} {op : BusOp} (heven : op.addr % 2 = 0) (hlo : lo ≤ op.addr)
    (hend : op.addr + 2 ≤ lo + n) : PlanWithin lo n [op] :=
  List.forall_mem_singleton.2 ⟨heven, hlo, hend⟩

theorem palettePlan_within (base : Nat) (hbase : base % 2 = 0) (index color : Word) :
    PlanWithin base 512 (palettePlan base index color) := by
  unfold palettePlan
  split
  · next hr =>
    obtain ⟨hlo, hend⟩ := paletteSlot_bounds (base := base) (operandNat_lt hr)
    exact planWithin_singleton (by simp only [BusOp.addr, paletteSlot]; omega) hlo hend
  · exact planWithin_nil _ _

/-- The accesses of a transfer that stays inside a region of whole halfwords stay inside it too. -/
theorem tilePlan_within {lo n d : Nat} {bytes : List Byte} (hlo : lo % 2 = 0) (hn : n % 2 = 0) (hd : lo ≤ d)
    (hend : d + bytes.length ≤ lo + n) : PlanWithin lo n (tilePlan d bytes) := by
  unfold tilePlan
  split
  · exact planWithin_nil _ _
  · intro op hop
    obtain ⟨j, hj, rfl⟩ := List.mem_map.1 hop
    rw [List.mem_range] at hj
    rw [addr_tileHalf]
    omega

/-- A tile command makes no access, or those of its transfer, which then is legal. -/
theorem tileCommandPlan_cases (base size : Nat) (block offset : Word) (bytes : List Byte) :
    tileCommandPlan base size block offset bytes = [] ∨
    (isNegative block = false ∧ isNegative offset = false ∧ tileOverruns size block offset bytes.length = false ∧
      tileCommandPlan base size block offset bytes = tilePlan (tileDest base block offset) bytes) := by
  unfold tileCommandPlan
  split
  · exact .inl rfl
  · next h =>
    simp only [Bool.or_eq_true, not_or, Bool.not_eq_true] at h
    exact .inr ⟨h.1.1, h.1.2, h.2, rfl⟩

theorem tileCommandPlan_within (base size : Nat) (hbase : base % 2 = 0) (hsize : size % 2 = 0) (block offset : Word)
    (bytes : List Byte) : PlanWithin base size (tileCommandPlan base size block offset bytes) := by
  rcases tileCommandPlan_cases base size block offset bytes with h | ⟨hb, ho, hn, h⟩ <;> rw [h]
  · exact planWithin_nil _ _
  · obtain ⟨hlo, hend⟩ := tileDest_bounds (base := base) hb ho hn
    exact tilePlan_within hbase hsize hlo hend

theorem codecPlan_within {f : Nat} (hf : f < 3) (index : Word) : PlanWithin 0x07000000 1024 (codecPlan f index) := by
  unfold codecPlan
  split
  · next hr =>
    have hend := fieldOffset_bounds (operandNat_lt hr) hf
    refine planWithin_singleton ?_ ?_ ?_ <;>
      simp only [BusOp.addr, Config.oamBase, fieldOffset, Config.recordStride] at hend ⊢ <;> omega
  · exact planWithin_nil _ _

theorem commitPlan_within (s : State) : PlanWithin 0x07000000 1024 (commitPlan s) := by
  intro op hop
  obtain ⟨j, hj, rfl⟩ := List.mem_map.1 hop
  simp only [List.mem_range, Config.oamBytes] at hj
  simp only [BusOp.addr, Config.oamBase]
  omega

/-- The accesses of every command lie in its region, when DT holds a page (20_memory.md R35, R39). -/
theorem busPlan_within {s : State} (hd : s.DrawTargetLegal) (i : Instr) :
    PlanWithin (regionOf i s).1 (regionOf i s).2 (busPlan i s) := by
  cases i with
  | rgb5 r g b => exact planWithin_nil _ _
  | rgb8 r g b => exact planWithin_nil _ _
  | bgSet index color => exact palettePlan_within Config.palBgBase (by decide) index color
  | objSet index color => exact palettePlan_within Config.palObjBase (by decide) index color
  | bgWrite block offset bytes =>
    exact tileCommandPlan_within Config.bgTileBase Config.bgTileSize (by decide) (by decide) block offset bytes
  | objWrite block offset bytes =>
    exact tileCommandPlan_within Config.objTileBase Config.objTileSize (by decide) (by decide) block offset bytes
  | m3SetPixel x y color =>
    simp only [busPlan]
    split
    · next hs =>
      obtain ⟨hlo, hend⟩ := m3Cell_bounds (onScreen_lt hs).1 (onScreen_lt hs).2
      exact planWithin_singleton (by simp only [BusOp.addr, m3Cell, Config.m3FbBase]; omega) hlo hend
    · exact planWithin_nil _ _
  | m4Flip => exact planWithin_singleton (by decide) (le_refl _) (le_refl _)
  | m4SetPixel x y color =>
    simp only [busPlan]
    split
    · next hs =>
      obtain ⟨hx, hy⟩ := onScreen_lt (Bool.and_eq_true_iff.1 hs).1
      obtain ⟨hlo, hend⟩ := m4Cell_bounds (page := s.dt) hx hy
      exact planWithin_singleton (m4Cell_legal hd hx hy).1 hlo hend
    · exact planWithin_nil _ _
  | setAttr index field value => exact planWithin_nil _ _
  | updateOam => exact commitPlan_within s
  | attr0Objy index => exact codecPlan_within (by decide) index
  | attr1Objx index => exact codecPlan_within (by decide) index
  | attr1Rot index => exact codecPlan_within (by decide) index
  | attr2Priority index => exact codecPlan_within (by decide) index
  | attr2Palette index => exact codecPlan_within (by decide) index

/-- The accesses of every command lie inside the address space, when DT holds a page. -/
theorem busPlan_within_space {s : State} (hd : s.DrawTargetLegal) (i : Instr) :
    PlanWithin 0 Config.spaceBytes (busPlan i s) := by
  intro op hop
  obtain ⟨heven, -, hend⟩ := busPlan_within hd i op hop
  have hspace := regionOf_end_le hd i
  exact ⟨heven, Nat.zero_le _, by omega⟩

/-- A command makes no access, one that only M4_FLIP makes a toggle, those of a transfer, or those of the commit. -/
theorem busPlan_shape (i : Instr) (s : State) :
    busPlan i s = [] ∨ (∃ op, busPlan i s = [op] ∧ (i = .m4Flip ∨ ∀ a mask, op ≠ .toggle a mask)) ∨
    (∃ d bytes, busPlan i s = tilePlan d bytes) ∨ busPlan i s = commitPlan s := by
  cases i with
  | rgb5 | rgb8 | setAttr => exact .inl rfl
  | m4Flip => exact .inr (.inl ⟨_, rfl, .inl rfl⟩)
  | updateOam => exact .inr (.inr (.inr rfl))
  | bgWrite block offset bytes | objWrite block offset bytes =>
    simp only [busPlan, tileCommandPlan]
    split
    · exact .inl rfl
    · exact .inr (.inr (.inl ⟨_, _, rfl⟩))
  | bgSet | objSet | m3SetPixel | m4SetPixel | attr0Objy | attr1Objx | attr1Rot | attr2Priority | attr2Palette =>
    simp only [busPlan, palettePlan, codecPlan]
    split
    · exact .inr (.inl ⟨_, rfl, .inr fun _ _ => BusOp.noConfusion⟩)
    · exact .inl rfl

theorem nodup_addr_tilePlan (d : Nat) (bytes : List Byte) : ((tilePlan d bytes).map BusOp.addr).Nodup := by
  unfold tilePlan
  split
  · exact List.nodup_nil
  · rw [List.map_map]
    refine List.nodup_range.map fun j k h => ?_
    simp only [Function.comp_apply, addr_tileHalf] at h
    omega

theorem nodup_addr_commitPlan (s : State) : ((commitPlan s).map BusOp.addr).Nodup := by
  rw [commitPlan, List.map_map]
  refine List.nodup_range.map fun j k h => ?_
  simp only [Function.comp_apply, BusOp.addr] at h
  omega

/-- No command accesses a halfword twice: a read-modify-write is one access (20_memory.md R41). -/
theorem nodup_addr_busPlan (i : Instr) (s : State) : ((busPlan i s).map BusOp.addr).Nodup := by
  rcases busPlan_shape i s with h | ⟨op, h, -⟩ | ⟨d, bytes, h⟩ | h <;> rw [h]
  · exact List.nodup_nil
  · exact List.nodup_singleton _
  · exact nodup_addr_tilePlan d bytes
  · exact nodup_addr_commitPlan s

/-! What a plan does to one halfword -/

/-- The halfword an access leaves, from the one it finds. -/
def BusOp.result : BusOp → Half → Half
  | .read _, old => old
  | .write _ v, _ => v
  | .merge _ keep v, old => (old &&& keep) ||| v
  | .toggle _ mask, old => old ^^^ mask

/-- Writing back the halfword that stands there changes nothing. -/
theorem writeHalf_readHalf {m : Memory} (hm : m.wf = true) {a : Nat} (ha : a + 2 ≤ Config.spaceBytes) :
    m.writeHalf a (m.readHalf a) = m := by
  refine memory_ext (wf_writeHalf hm a _ ha) hm fun x => ?_
  obtain ⟨hlow, hhigh⟩ := readHalf_bytes m a
  rw [read_writeHalf hm a x _ ha, hlow, hhigh]
  split_ifs with h0 h1
  · rw [h0]
  · rw [h1]
  · rfl

/-- Every access, a plain read too, leaves memory as a write of its result would. -/
theorem apply_eq_writeHalf {m : Memory} (hm : m.wf = true) {op : BusOp} (ha : op.addr + 2 ≤ Config.spaceBytes) :
    BusOp.apply m op = m.writeHalf op.addr (op.result (m.readHalf op.addr)) := by
  cases op with
  | read a => exact (writeHalf_readHalf hm ha).symm
  | write a v => rfl
  | merge a keep v => rfl
  | toggle a mask => rfl

theorem runPlan_cons (m : Memory) (op : BusOp) (plan : List BusOp) :
    runPlan m (op :: plan) = runPlan (BusOp.apply m op) plan := rfl

theorem runPlan_append (m : Memory) (p q : List BusOp) : runPlan m (p ++ q) = runPlan (runPlan m p) q :=
  List.foldl_append

theorem wf_runPlan {plan : List BusOp} (hp : PlanWithin 0 Config.spaceBytes plan) :
    ∀ {m : Memory}, m.wf = true → (runPlan m plan).wf = true := by
  induction plan with
  | nil => exact id
  | cons op plan ih =>
    intro m hm
    obtain ⟨hop, hrest⟩ := List.forall_mem_cons.1 hp
    exact ih hrest (wf_apply hm op (by omega))

/-- A plan leaves every halfword it does not access. -/
theorem readHalf_runPlan_other {plan : List BusOp} (hp : PlanWithin 0 Config.spaceBytes plan) {a : Nat}
    (ha : a % 2 = 0) (hout : a ∉ plan.map BusOp.addr) :
    ∀ {m : Memory}, m.wf = true → (runPlan m plan).readHalf a = m.readHalf a := by
  induction plan with
  | nil => exact fun _ => rfl
  | cons op plan ih =>
    intro m hm
    obtain ⟨⟨heven, -, hend⟩, hrest⟩ := List.forall_mem_cons.1 hp
    rw [List.map_cons, List.mem_cons, not_or] at hout
    obtain ⟨hne, hout⟩ := hout
    have hfit : op.addr + 2 ≤ Config.spaceBytes := by omega
    rw [runPlan_cons, ih hrest hout (wf_apply hm op hfit), apply_eq_writeHalf hm hfit,
      readHalf_writeHalf_other hm _ a _ hfit (by omega)]

/-- After a plan that accesses each halfword once, the halfword of each access holds that access's result. -/
theorem readHalf_runPlan_access {m : Memory} (hm : m.wf = true) {p q : List BusOp} {op : BusOp}
    (hp : PlanWithin 0 Config.spaceBytes (p ++ op :: q)) (honce : ((p ++ op :: q).map BusOp.addr).Nodup) :
    (runPlan m (p ++ op :: q)).readHalf op.addr = op.result ((runPlan m p).readHalf op.addr) := by
  obtain ⟨hbefore, hafter⟩ := List.forall_mem_append.1 hp
  obtain ⟨⟨heven, -, hend⟩, hafter⟩ := List.forall_mem_cons.1 hafter
  have hfit : op.addr + 2 ≤ Config.spaceBytes := by omega
  have hwf := wf_runPlan hbefore hm
  have hout : op.addr ∉ q.map BusOp.addr := by
    rw [List.map_append, List.map_cons] at honce
    exact (List.nodup_cons.1 honce.of_append_right).1
  rw [runPlan_append, runPlan_cons, readHalf_runPlan_other hafter heven hout (wf_apply hwf op hfit),
    apply_eq_writeHalf hwf hfit, readHalf_writeHalf_same hwf _ _ hfit]

/-- While a plan that accesses each halfword once runs, every halfword is as it was before the plan or as it is after it. -/
theorem readHalf_runPlan_take {m : Memory} (hm : m.wf = true) {plan : List BusOp}
    (hp : PlanWithin 0 Config.spaceBytes plan) (honce : (plan.map BusOp.addr).Nodup) {a : Nat} (ha : a % 2 = 0) (k : Nat) :
    (runPlan m (plan.take k)).readHalf a = m.readHalf a ∨
    (runPlan m (plan.take k)).readHalf a = (runPlan m plan).readHalf a := by
  have hdone : PlanWithin 0 Config.spaceBytes (plan.take k) := fun op hop => hp op (List.mem_of_mem_take hop)
  have hleft : PlanWithin 0 Config.spaceBytes (plan.drop k) := fun op hop => hp op (List.mem_of_mem_drop hop)
  by_cases hstill : a ∈ (plan.drop k).map BusOp.addr
  · refine .inl (readHalf_runPlan_other hdone ha (fun hbefore => ?_) hm)
    rw [List.map_drop] at hstill
    rw [List.map_take] at hbefore
    exact List.disjoint_take_drop honce (le_refl k) hbefore hstill
  · refine .inr (Eq.symm ?_)
    rw [← List.take_append_drop k plan, runPlan_append, List.take_append_drop]
    exact readHalf_runPlan_other hleft ha hstill (wf_runPlan hdone hm)

/-! Repeating a plan -/

theorem runPlan_eq_self {m : Memory} : ∀ {plan : List BusOp}, (∀ op ∈ plan, BusOp.apply m op = m) → runPlan m plan = m
  | [], _ => rfl
  | op :: plan, h => by
    obtain ⟨hop, hrest⟩ := List.forall_mem_cons.1 h
    rw [runPlan_cons, hop, runPlan_eq_self hrest]

/-- Every access but a toggle finds its own result and leaves it. -/
theorem result_result {op : BusOp} (hop : ∀ a mask, op ≠ .toggle a mask) (old : Half) :
    op.result (op.result old) = op.result old := by
  cases op with
  | read a => rfl
  | write a v => rfl
  | merge a keep v =>
    ext i hi
    simp only [BusOp.result, BitVec.getElem_or, BitVec.getElem_and]
    cases old[i] <;> cases keep[i] <;> cases v[i] <;> rfl
  | toggle a mask => exact absurd rfl (hop a mask)

/-- A plan without a toggle that accesses each halfword once leaves memory, repeated, as one run left it. -/
theorem runPlan_runPlan_self {m : Memory} (hm : m.wf = true) {plan : List BusOp}
    (hp : PlanWithin 0 Config.spaceBytes plan) (honce : (plan.map BusOp.addr).Nodup)
    (hkeep : ∀ op ∈ plan, ∀ a mask, op ≠ .toggle a mask) : runPlan (runPlan m plan) plan = runPlan m plan := by
  refine runPlan_eq_self fun op hop => ?_
  have hfit : op.addr + 2 ≤ Config.spaceBytes := by
    obtain ⟨-, -, hend⟩ := hp op hop
    omega
  have hwf := wf_runPlan hp hm
  have hstands : op.result ((runPlan m plan).readHalf op.addr) = (runPlan m plan).readHalf op.addr := by
    obtain ⟨p, q, rfl⟩ := List.append_of_mem hop
    rw [readHalf_runPlan_access hm hp honce, result_result (hkeep op hop)]
  rw [apply_eq_writeHalf hwf hfit, hstands, writeHalf_readHalf hwf hfit]

theorem tileHalf_ne_toggle (d h : Nat) (bytes : List Byte) (a : Nat) (mask : Half) :
    tileHalf d bytes h ≠ .toggle a mask := by
  simp only [tileHalf]
  split_ifs <;> exact BusOp.noConfusion

/-- Only M4_FLIP inverts bits in place. -/
theorem busPlan_ne_toggle {i : Instr} (hi : i ≠ .m4Flip) (s : State) :
    ∀ op ∈ busPlan i s, ∀ a mask, op ≠ .toggle a mask := by
  rcases busPlan_shape i s with h | ⟨op, h, hflip | hop⟩ | ⟨d, bytes, h⟩ | h
  · rw [h]
    exact List.forall_mem_nil _
  · exact absurd hflip hi
  · rw [h]
    exact List.forall_mem_singleton.2 hop
  · rw [h, tilePlan]
    split
    · exact List.forall_mem_nil _
    · exact List.forall_mem_map.2 fun j _ => tileHalf_ne_toggle _ _ _
  · rw [h]
    exact List.forall_mem_map.2 fun j _ _ _ => BusOp.noConfusion

/-- The accesses of a command depend on SH and DT alone. -/
theorem busPlan_congr {s t : State} (hsh : t.sh = s.sh) (hdt : t.dt = s.dt) (i : Instr) : busPlan i t = busPlan i s := by
  cases i with
  | m4SetPixel x y color => simp only [busPlan, hdt]
  | updateOam => simp only [busPlan, commitPlan, State.shRead, State.shByte, hsh]
  | _ => rfl

/-- A command other than M4_FLIP makes the same accesses when it is repeated. -/
theorem busPlan_repeated {i : Instr} {s t : State} (hi : i ≠ .m4Flip) (h : exec i s = .next t) :
    busPlan i t = busPlan i s := by
  obtain ⟨hsh | ⟨index, field, value, rfl⟩, hdt⟩ := exec_blockState h
  · exact busPlan_congr hsh (hdt.resolve_right fun hflip => hi hflip.1) i
  · rfl

/-! The memory the accesses of a command leave -/

theorem packCommand_mem {limit shift : Nat} {r g b : Word} {s t : State} (h : packCommand limit shift r g b s = .next t) :
    t.mem = s.mem := by
  obtain ⟨w, d, h'⟩ := packCommand_cases limit shift r g b s
  obtain rfl := Host.Outcome.next.inj (h.symm.trans h')
  rfl

theorem runPlan_palettePlan {base : Nat} {index color : Word} {s t : State}
    (h : paletteSet base index color s = .next t) : runPlan s.mem (palettePlan base index color) = t.mem := by
  rcases paletteSet_cases base index color s with ⟨hr, h'⟩ | ⟨hr, h'⟩ <;>
    obtain rfl := Host.Outcome.next.inj (h.symm.trans h') <;> simp only [palettePlan, hr] <;> rfl

theorem runPlan_codecPlan {f lo w : Nat} {index : Word} {s t : State} (h : codec f lo w index s = .next t) :
    runPlan s.mem (codecPlan f index) = t.mem := by
  rcases codec_cases f lo w index s with ⟨hr, h'⟩ | ⟨hr, h'⟩ <;>
    obtain rfl := Host.Outcome.next.inj (h.symm.trans h') <;> simp only [codecPlan, hr] <;> rfl

theorem runPlan_tileCommandPlan {base size : Nat} (hspace : base + size ≤ Config.spaceBytes) {block offset : Word}
    {bytes : List Byte} {s t : State} (hm : s.mem.wf = true) (h : tileWrite base size block offset bytes s = .next t) :
    runPlan s.mem (tileCommandPlan base size block offset bytes) = t.mem := by
  rcases tileWrite_cases base size block offset bytes s with ⟨hb, ho, hn, h'⟩ | ⟨hneg, h'⟩ | ⟨hpos, hover, h'⟩ <;>
    obtain rfl := Host.Outcome.next.inj (h.symm.trans h')
  · obtain ⟨-, hend⟩ := tileDest_bounds (base := base) hb ho hn
    simp only [tileCommandPlan, hb, ho, hn]
    exact runPlan_tilePlan hm _ bytes (hend.trans hspace)
  · simp only [tileCommandPlan, hneg, Bool.true_or, if_true]
    rfl
  · simp only [tileCommandPlan, hpos, hover, Bool.false_or, if_true]
    rfl

/-- The accesses of a command, made in order, leave the memory its meaning leaves (20_memory.md R44). -/
theorem runPlan_busPlan {i : Instr} {s t : State} (hm : s.mem.wf = true) (h : exec i s = .next t) :
    runPlan s.mem (busPlan i s) = t.mem := by
  cases i with
  | rgb5 r g b => exact (packCommand_mem h).symm
  | rgb8 r g b => exact (packCommand_mem h).symm
  | bgSet index color => exact runPlan_palettePlan h
  | objSet index color => exact runPlan_palettePlan h
  | bgWrite block offset bytes => exact runPlan_tileCommandPlan (by decide) hm h
  | objWrite block offset bytes => exact runPlan_tileCommandPlan (by decide) hm h
  | m3SetPixel x y color =>
    rcases m3SetPixel_cases x y color s with ⟨hs, h'⟩ | ⟨hs, h'⟩ <;>
      obtain rfl := Host.Outcome.next.inj (h.symm.trans h') <;> simp only [busPlan, hs] <;> rfl
  | m4Flip =>
    obtain rfl := Host.Outcome.next.inj h
    rfl
  | m4SetPixel x y color =>
    rcases m4SetPixel_cases x y color s with ⟨hs, hc, -, h'⟩ | ⟨hs, h'⟩ | ⟨hs, hc, h'⟩ | ⟨-, -, -, h'⟩ <;>
      cases h.symm.trans h'
    · simp only [busPlan, hs, hc]
      rfl
    · simp only [busPlan, hs]
      rfl
    · simp only [busPlan, hs, hc]
      rfl
  | setAttr index field value =>
    rcases setAttr_cases index field value s with ⟨-, -, h'⟩ | ⟨-, h'⟩ | ⟨-, -, h'⟩ <;>
      obtain rfl := Host.Outcome.next.inj (h.symm.trans h') <;> rfl
  | updateOam =>
    obtain rfl := Host.Outcome.next.inj h
    exact runPlan_commitPlan s hm
  | attr0Objy index => exact runPlan_codecPlan h
  | attr1Objx index => exact runPlan_codecPlan h
  | attr1Rot index => exact runPlan_codecPlan h
  | attr2Priority index => exact runPlan_codecPlan h
  | attr2Palette index => exact runPlan_codecPlan h

/-! How many halfwords a plan reads and writes -/

theorem planReads_range_succ (f : Nat → BusOp) (c : Nat) :
    planReads ((List.range (c + 1)).map f) = planReads ((List.range c).map f) + (f c).reads := by
  simp [List.range_succ, planReads]

theorem planWrites_of_forall {plan : List BusOp} (h : ∀ op ∈ plan, op.writes = 1) : planWrites plan = plan.length := by
  rw [planWrites, List.sum_eq_card_nsmul _ 1 (List.forall_mem_map.2 h), List.length_map, smul_eq_mul, Nat.mul_one]

theorem planReads_of_forall {plan : List BusOp} (h : ∀ op ∈ plan, op.reads = 0) : planReads plan = 0 :=
  List.sum_eq_zero (List.forall_mem_map.2 h)

theorem planWrites_tilePlan (d : Nat) (bytes : List Byte) :
    planWrites (tilePlan d bytes) = if bytes = [] then 0 else (d % 2 + bytes.length + 1) / 2 := by
  simp only [tilePlan, List.isEmpty_iff]
  split
  · rfl
  · rw [planWrites_of_forall (List.forall_mem_map.2 fun j _ => writes_tileHalf _ _ _), List.length_map, List.length_range]

/-- The halfwords the first `c` accesses of a transfer read: the first one when the transfer begins at an odd address, and the
last one when its end covers the low byte alone. -/
theorem planReads_tilePrefix {d : Nat} {bytes : List Byte} (hn : 0 < bytes.length) :
    ∀ c, 2 * c ≤ d % 2 + bytes.length + 1 →
      planReads ((List.range c).map fun j => tileHalf d bytes (d - d % 2 + 2 * j))
        = (if 0 < c then d % 2 else 0) + if d % 2 + bytes.length < 2 * c then 1 else 0
  | 0, _ => rfl
  | c + 1, hc => by
    rw [planReads_range_succ, planReads_tilePrefix hn c (by omega), reads_tileHalf]
    split_ifs <;> omega

theorem planReads_tilePlan (d : Nat) (bytes : List Byte) :
    planReads (tilePlan d bytes) = if bytes = [] then 0 else d % 2 + (d + bytes.length) % 2 := by
  simp only [tilePlan, List.isEmpty_iff]
  split
  · rfl
  · next hne =>
    have hn : 0 < bytes.length := List.length_pos_iff.2 hne
    rw [planReads_tilePrefix hn _ (by omega)]
    split_ifs <;> omega

theorem planReads_tilePlan_le (d : Nat) (bytes : List Byte) : planReads (tilePlan d bytes) ≤ 2 := by
  rw [planReads_tilePlan]
  split_ifs <;> omega

/-- A legal tile command makes the accesses of its transfer. -/
theorem tileCommandPlan_legal (base : Nat) {size : Nat} {block offset : Word} {bytes : List Byte} (hb : 0 ≤ block.toInt)
    (ho : 0 ≤ offset.toInt) (hn : block.toInt * 64 + offset.toInt + (bytes.length : Int) ≤ size) :
    tileCommandPlan base size block offset bytes = tilePlan (base + block.toNat * 64 + offset.toNat) bytes := by
  have hlegal : ¬ ((isNegative block || isNegative offset || tileOverruns size block offset bytes.length) = true) := by
    simp only [Bool.or_eq_true, isNegative_iff, tileOverruns_iff]
    omega
  rw [tileCommandPlan, if_neg hlegal, tileDest, operandNat_eq_toNat hb, operandNat_eq_toNat ho]

theorem planReads_commitPlan (s : State) : planReads (commitPlan s) = 0 :=
  planReads_of_forall (List.forall_mem_map.2 fun _ _ => rfl)

theorem planWrites_commitPlan (s : State) : planWrites (commitPlan s) = 512 := by
  rw [commitPlan, planWrites_of_forall (List.forall_mem_map.2 fun _ _ => rfl), List.length_map, List.length_range,
    Config.oamBytes]

theorem accessCounts_palettePlan (base : Nat) {index : Word} (color : Word) (h : inRange index 256 = true) :
    planReads (palettePlan base index color) = 0 ∧ planWrites (palettePlan base index color) = 1 := by
  rw [palettePlan, if_pos h]
  exact ⟨rfl, rfl⟩

theorem accessCounts_codecPlan (f : Nat) {index : Word} (h : inRange index 128 = true) :
    planReads (codecPlan f index) = 1 ∧ planWrites (codecPlan f index) = 0 := by
  rw [codecPlan, if_pos h]
  exact ⟨rfl, rfl⟩

theorem accessCounts_m3SetPixel {x y : Word} (color : Word) (s : State) (h : onScreen x y = true) :
    planReads (busPlan (.m3SetPixel x y color) s) = 0 ∧ planWrites (busPlan (.m3SetPixel x y color) s) = 1 := by
  rw [busPlan, if_pos h]
  exact ⟨rfl, rfl⟩

theorem accessCounts_m4SetPixel {x y color : Word} (s : State) (hs : onScreen x y = true) (hc : inRange color 256 = true) :
    planReads (busPlan (.m4SetPixel x y color) s) = 1 ∧ planWrites (busPlan (.m4SetPixel x y color) s) = 1 := by
  rw [busPlan, if_pos (Bool.and_eq_true_iff.2 ⟨hs, hc⟩)]
  exact ⟨rfl, rfl⟩

theorem accessCounts_tileCommandPlan (base : Nat) {size : Nat} {block offset : Word} {bytes : List Byte}
    (hb : 0 ≤ block.toInt) (ho : 0 ≤ offset.toInt)
    (hn : block.toInt * 64 + offset.toInt + (bytes.length : Int) ≤ size) :
    (planReads (tileCommandPlan base size block offset bytes)
      = if bytes = [] then 0 else (base + block.toNat * 64 + offset.toNat) % 2
          + (base + block.toNat * 64 + offset.toNat + bytes.length) % 2) ∧
    planReads (tileCommandPlan base size block offset bytes) ≤ 2 ∧
    planWrites (tileCommandPlan base size block offset bytes)
      = if bytes = [] then 0 else ((base + block.toNat * 64 + offset.toNat) % 2 + bytes.length + 1) / 2 := by
  rw [tileCommandPlan_legal base hb ho hn]
  exact ⟨planReads_tilePlan _ _, planReads_tilePlan_le _ _, planWrites_tilePlan _ _⟩

/-! The host's reads and writes -/

/-- Byte `j` of a word, in base 256. -/
theorem extractByte_eq_div (v : Word) (j : Nat) : v.extractLsb' (8 * j) 8 = BitVec.ofNat 8 (v.toNat / 256 ^ j) := by
  rw [BitVec.extractLsb', Nat.shiftRight_eq_div_pow, Nat.pow_mul]

/-- Byte `j` of the bytes of a value. -/
theorem getD_leBytes {n : Nat} : ∀ {j : Nat} (v : Nat), j < n → (leBytes n v).getD j 0#8 = BitVec.ofNat 8 (v / 256 ^ j) := by
  induction n with
  | zero => exact fun _ h => absurd h (Nat.not_lt_zero _)
  | succ n ih =>
    intro j v h
    cases j with
    | zero => rw [leBytes, List.getD_cons_zero, Nat.pow_zero, Nat.div_one]
    | succ j =>
      rw [leBytes, List.getD_cons_succ, ih (v / 256) (Nat.lt_of_succ_lt_succ h), Nat.div_div_eq_div_mul, Nat.pow_succ']

/-- A read of `n` bytes fits in them. -/
theorem readLe_lt (m : Memory) : ∀ n a, m.readLe a n < 256 ^ n
  | 0, _ => Nat.one_pos
  | n + 1, a => by
    have ih := readLe_lt m n (a + 1)
    have hbyte := (m.read a).isLt
    rw [Memory.readLe, Nat.pow_succ]
    omega

/-- Byte `j` of a read of `n` bytes is the byte at that distance. -/
theorem readLe_byte (m : Memory) : ∀ {n j : Nat} (a : Nat), j < n →
    BitVec.ofNat 8 (m.readLe a n / 256 ^ j) = m.read (a + j)
  | 0, _, _, h => absurd h (Nat.not_lt_zero _)
  | n + 1, 0, a, _ => by
    apply BitVec.eq_of_toNat_eq
    have hbyte := (m.read a).isLt
    simp only [Memory.readLe, Nat.pow_zero, Nat.div_one, Nat.add_zero, BitVec.toNat_ofNat]
    omega
  | n + 1, j + 1, a, h => by
    have hbyte := (m.read a).isLt
    have hdrop : m.readLe a (n + 1) / 256 = m.readLe (a + 1) n := by
      rw [Memory.readLe]
      omega
    rw [Nat.pow_succ', ← Nat.div_div_eq_div_mul, hdrop, readLe_byte m (a + 1) (Nat.lt_of_succ_lt_succ h),
      Nat.add_right_comm, Nat.add_assoc]

theorem width_bytes_le (w : Width) : w.bytes ≤ 4 := by
  cases w <;> decide

/-- A step with a host write due makes it. -/
theorem step_of_dueHostWrite {s : State} {w : HostWrite} (hf : s.fault = none) (hw : s.dueHostWrite = some w) :
    step s = performHostWrite w s := by
  simp only [step, hf, hw]

/-! The statements of 20_memory.md -/

/-- Settles O44, family by family in `busPlan_within`. -/
theorem accessesAreAlignedAndInRegion : Obligations.AccessesAreAlignedAndInRegion :=
  fun i _ op hd hop => busPlan_within hd i op hop

/-- Settles O45: a transfer reads only where its ends cover half a halfword (`planReads_tilePrefix`); every other
plan is written out. -/
theorem accessCounts : Obligations.AccessCounts := by
  intro s a b c bytes
  refine ⟨⟨rfl, rfl⟩, ⟨rfl, rfl⟩, fun ha => ?_, fun d => ⟨planReads_tilePlan_le d bytes, planWrites_tilePlan d bytes⟩,
    accessCounts_tileCommandPlan Config.bgTileBase, accessCounts_tileCommandPlan Config.objTileBase,
    accessCounts_m3SetPixel c s, ⟨rfl, rfl⟩, accessCounts_m4SetPixel s, ⟨rfl, rfl⟩,
    ⟨planReads_commitPlan s, planWrites_commitPlan s⟩, fun ha => ?_⟩
  · obtain ⟨hbgReads, hbgWrites⟩ := accessCounts_palettePlan Config.palBgBase b ha
    exact ⟨hbgReads, hbgWrites, accessCounts_palettePlan Config.palObjBase b ha⟩
  · simp only [List.forall_mem_cons, List.not_mem_nil, false_implies, implies_true, and_true]
    exact ⟨accessCounts_codecPlan 0 ha, accessCounts_codecPlan 1 ha, accessCounts_codecPlan 1 ha,
      accessCounts_codecPlan 2 ha, accessCounts_codecPlan 2 ha⟩

/-- Settles O46, command by command in `runPlan_busPlan`. -/
theorem accessesGiveTheMeaningsMemory : Obligations.AccessesGiveTheMeaningsMemory :=
  fun _ _ _ hs h => runPlan_busPlan hs.1 h

/-- Settles O47: no command accesses a halfword twice, so each is still as before or already as after (`readHalf_runPlan_take`). -/
theorem displaySeesOldOrNewHalfword : Obligations.DisplaySeesOldOrNewHalfword := by
  intro i s t ⟨hm, hd⟩ h a ha
  refine ⟨rfl, fun k hk => ?_, fun k => ?_⟩
  · rw [displayView, displayMemory, List.take_of_length_le hk, runPlan_busPlan hm h]
  · rw [← runPlan_busPlan hm h]
    exact readHalf_runPlan_take hm (busPlan_within_space hd i) (nodup_addr_busPlan i s) ha k

/-- Settles O48: the second execution makes the same accesses, none of them a toggle, and each finds its own result. -/
theorem commandsAreIdempotentOnMemory : Obligations.CommandsAreIdempotentOnMemory := by
  intro i s t u hs hi hst htu
  have hfirst : runPlan s.mem (busPlan i s) = t.mem := runPlan_busPlan hs.1 hst
  calc u.mem = runPlan t.mem (busPlan i t) := (runPlan_busPlan (exec_keeps_wf hs hst) htu).symm
    _ = runPlan (runPlan s.mem (busPlan i s)) (busPlan i s) := by rw [busPlan_repeated hi hst, hfirst]
    _ = runPlan s.mem (busPlan i s) :=
      runPlan_runPlan_self hs.1 (busPlan_within_space hs.2 i) (nodup_addr_busPlan i s) (busPlan_ne_toggle hi s)
    _ = t.mem := hfirst

/-- Settles O49: the step is `performHostWrite`, whose bytes `read_hostWriteMemory` gives. -/
theorem hostWriteChangesItsBytes : Obligations.HostWriteChangesItsBytes := by
  intro s w hf hw
  rw [step_of_dueHostWrite hf hw, performHostWrite]
  refine ⟨fun hm halign => ?_, fun hmis => if_neg hmis⟩
  rw [if_pos halign]
  refine ⟨_, rfl, rfl, fun j hj => ?_, fun x hx => ?_⟩
  · rw [read_hostWriteMemory hm halign, if_pos (by omega), Nat.add_sub_cancel_left, getD_leBytes _ hj, extractByte_eq_div]
  · rw [read_hostWriteMemory hm halign, if_neg (by omega)]

/-- Settles O56: a read of at most four bytes fits in a word, whose bytes `readLe_byte` gives. -/
theorem hostReadGivesItsBytes : Obligations.HostReadGivesItsBytes := by
  intro s a w
  refine ⟨fun halign => ⟨_, if_pos halign, ?_⟩, fun hmis => if_neg hmis⟩
  have hlt : s.mem.readLe a.toNat w.bytes < 256 ^ w.bytes := readLe_lt _ _ _
  have hword : (BitVec.ofNat 32 (s.mem.readLe a.toNat w.bytes)).toNat = s.mem.readLe a.toNat w.bytes :=
    Nat.mod_eq_of_lt (hlt.trans_le (Nat.pow_le_pow_right (by decide) (width_bytes_le w)))
  constructor
  · rwa [hword, Nat.pow_mul]
  · intro j hj
    rw [extractByte_eq_div, hword, readLe_byte s.mem a.toNat hj]

end Sys2Proof.Machine
end

section
/-! Encoding (30_encoding.md): the words of a command, what the decoder takes from the stream, and the lines of the
assembler. -/

namespace Sys2Proof

/-! The decoder by its header -/

/-- The reserved bits of a header are 0 exactly when the header is a byte (30_encoding.md R54). -/
theorem headerRsv_eq_zero_iff (h : Word) : headerRsv h = 0#24 ↔ h.toNat < 0x100 := by
  have hlt := h.isLt
  rw [← BitVec.toNat_inj, headerRsv, BitVec.extractLsb'_toNat, Nat.shiftRight_eq_div_pow, BitVec.toNat_ofNat]
  omega

theorem decode_of_reserved {h : Word} (hr : headerRsv h ≠ 0#24) (ws : List Word) :
    decode (h :: ws) = .raises .reservedNonzero := by
  rw [decode, if_pos hr]

theorem decode_of_illegal {h : Word} (hr : headerRsv h = 0#24) (hf : formatOf (headerOpc h) = none) (ws : List Word) :
    decode (h :: ws) = .raises .illegalOpcode := by
  rw [decode, if_neg (not_not.2 hr), hf]

theorem decode_of_format {h : Word} {f : Format} (hr : headerRsv h = 0#24) (hf : formatOf (headerOpc h) = some f)
    (ws : List Word) : decode (h :: ws) = readOperands f ws := by
  rw [decode, if_neg (not_not.2 hr), hf]

/-! The words a format reads -/

/-- `f.Reads used i`: of the words `used` behind its header, and of no others, format `f` makes the command `i`
(30_encoding.md R53, R56, R57). -/
inductive Format.Reads : Format → List Word → Instr → Prop
  | h0 (i : Instr) : Reads (.h0 i) [] i
  | h1 (mk : Word → Instr) (a : Word) : Reads (.h1 mk) [a] (mk a)
  | h2 (mk : Word → Word → Instr) (a b : Word) : Reads (.h2 mk) [a, b] (mk a b)
  | h3 (mk : Word → Word → Word → Instr) (a b c : Word) : Reads (.h3 mk) [a, b, c] (mk a b c)
  | hd (mk : Word → Word → List Byte → Instr) (a b n : Word) (data : List Word) (h : data.length = dataWords n.toNat) :
      Reads (.hd mk) (a :: b :: n :: data) (mk a b ((unpackWords data).take n.toNat))

/-- The operand reader answers a command exactly when the words begin with those its format reads. -/
theorem readOperands_eq_command_iff {f : Format} {ws rest : List Word} {i : Instr} :
    readOperands f ws = .command i rest ↔ ∃ used, ws = used ++ rest ∧ f.Reads used i := by
  constructor
  · intro h
    unfold readOperands at h
    split at h
    · cases h; exact ⟨_, rfl, .h0 _⟩
    · cases h; exact ⟨_, rfl, .h1 _ _⟩
    · cases h; exact ⟨_, rfl, .h2 _ _ _⟩
    · cases h; exact ⟨_, rfl, .h3 _ _ _ _⟩
    · next mk a b n ws =>
      split at h
      · cases h
      · next hlen =>
        cases h
        refine ⟨a :: b :: n :: ws.take (dataWords n.toNat), by simp, .hd mk a b n _ ?_⟩
        rw [List.length_take]
        omega
    · cases h
  · rintro ⟨used, rfl, hr⟩
    cases hr with
    | h0 i => rfl
    | h1 mk a => rfl
    | h2 mk a b => rfl
    | h3 mk a b c => rfl
    | hd mk a b n data h => exact readOperands_hd mk a b n data rest h

/-- The decoder answers a command exactly when a header of the opcode map stands in front of the words its format reads. -/
theorem decode_eq_command_iff {ws rest : List Word} {i : Instr} :
    decode ws = .command i rest ↔
      ∃ h f used, ws = h :: (used ++ rest) ∧ headerRsv h = 0#24 ∧ formatOf (headerOpc h) = some f ∧ f.Reads used i := by
  constructor
  · intro hd
    cases ws with
    | nil => cases hd
    | cons h ws =>
      by_cases hr : headerRsv h = 0#24
      · cases hf : formatOf (headerOpc h) with
        | none => cases (decode_of_illegal hr hf ws).symm.trans hd
        | some f =>
          obtain ⟨used, rfl, hreads⟩ := readOperands_eq_command_iff.1 ((decode_of_format hr hf ws).symm.trans hd)
          exact ⟨h, f, used, rfl, hr, hf, hreads⟩
      · cases (decode_of_reserved hr ws).symm.trans hd
  · rintro ⟨h, f, used, rfl, hr, hf, hreads⟩
    rw [decode_of_format hr hf]
    exact readOperands_eq_command_iff.2 ⟨used, rfl, hreads⟩

/-- A command's length is that of its header and the words its format reads (30_encoding.md R58). -/
theorem commandLength_of_reads {h : Word} {f : Format} {used : List Word} {i : Instr} (hr : headerRsv h = 0#24)
    (hf : formatOf (headerOpc h) = some f) (hreads : f.Reads used i) (rest : List Word) :
    commandLength (h :: (used ++ rest)) = (h :: used).length := by
  rw [commandLength, if_neg (not_not.2 hr), hf]
  cases hreads with
  | h0 i => rfl
  | h1 mk a => rfl
  | h2 mk a b => rfl
  | h3 mk a b c => rfl
  | hd mk a b n data hdata =>
    simp only [List.cons_append, List.getD_cons_succ, List.getD_cons_zero, List.length_cons, hdata]
    omega

/-! The opcode map against the encoder -/

/-- `f.Encodes opc`: the commands format `f` makes are encoded as a header of opcode `opc` and their operand words, and the
format with data words makes one of the two tile commands (30_encoding.md R56, R60). -/
def Format.Encodes (opc : Byte) : Format → Prop
  | .h0 i => i.WellFormed ∧ encode i = [opc.setWidth 32]
  | .h1 mk => ∀ a, (mk a).WellFormed ∧ encode (mk a) = [opc.setWidth 32, a]
  | .h2 mk => ∀ a b, (mk a b).WellFormed ∧ encode (mk a b) = [opc.setWidth 32, a, b]
  | .h3 mk => ∀ a b c, (mk a b c).WellFormed ∧ encode (mk a b c) = [opc.setWidth 32, a, b, c]
  | .hd mk => (opc = 0x20#8 ∧ mk = .bgWrite) ∨ (opc = 0x21#8 ∧ mk = .objWrite)

/-- The decoder's opcode map agrees with the encoder, row by row (30_encoding.md R60). -/
theorem formatOf_encodes {opc : Byte} {f : Format} (h : formatOf opc = some f) : f.Encodes opc := by
  unfold formatOf at h
  split at h <;> cases h
  · exact fun _ _ _ => ⟨rfl, rfl⟩
  · exact fun _ _ _ => ⟨rfl, rfl⟩
  · exact fun _ _ => ⟨rfl, rfl⟩
  · exact fun _ _ => ⟨rfl, rfl⟩
  · exact .inl ⟨rfl, rfl⟩
  · exact .inr ⟨rfl, rfl⟩
  · exact fun _ _ _ => ⟨rfl, rfl⟩
  · exact ⟨rfl, rfl⟩
  · exact fun _ _ _ => ⟨rfl, rfl⟩
  · exact fun _ _ _ => ⟨rfl, rfl⟩
  · exact ⟨rfl, rfl⟩
  · exact fun _ => ⟨rfl, rfl⟩
  · exact fun _ => ⟨rfl, rfl⟩
  · exact fun _ => ⟨rfl, rfl⟩
  · exact fun _ => ⟨rfl, rfl⟩
  · exact fun _ => ⟨rfl, rfl⟩

/-- The header is the first word of the encoding. -/
theorem headerOf_eq_of_encode {i : Instr} {h : Word} {ws : List Word} (he : encode i = h :: ws) : headerOf i = h :=
  (List.cons.inj he).1

/-- An opcode of the map is the header of some command. -/
theorem exists_headerOf_of_formatOf {opc : Byte} {f : Format} (h : formatOf opc = some f) :
    ∃ i, headerOf i = opc.setWidth 32 := by
  have he := formatOf_encodes h
  cases f with
  | h0 i => exact ⟨i, headerOf_eq_of_encode he.2⟩
  | h1 mk => exact ⟨mk 0#32, headerOf_eq_of_encode (he _).2⟩
  | h2 mk => exact ⟨mk 0#32 0#32, headerOf_eq_of_encode (he _ _).2⟩
  | h3 mk => exact ⟨mk 0#32 0#32 0#32, headerOf_eq_of_encode (he _ _ _).2⟩
  | hd mk =>
    rcases he with ⟨rfl, -⟩ | ⟨rfl, -⟩
    · exact ⟨.bgWrite 0#32 0#32 [], rfl⟩
    · exact ⟨.objWrite 0#32 0#32 [], rfl⟩

/-- Every command's opcode stands in the map. -/
theorem exists_formatOf_headerOf (i : Instr) : ∃ f, formatOf (headerOpc (headerOf i)) = some f := by
  cases i <;> exact ⟨_, rfl⟩

/-- The operand word `n` of a well-formed tile command counts its bytes. -/
theorem toNat_ofNat_length {bytes : List Byte} (h : tileBytesFit bytes = true) :
    (BitVec.ofNat 32 bytes.length).toNat = bytes.length := by
  rw [BitVec.toNat_ofNat]
  exact Nat.mod_eq_of_lt (of_decide_eq_true h)

/-- The format with data words reads a tile command's own encoding as its bytes. -/
theorem reads_tile_operandWords (mk : Word → Word → List Byte → Instr) (block offset : Word) {bytes : List Byte}
    (h : tileBytesFit bytes = true) :
    (Format.hd mk).Reads (block :: offset :: BitVec.ofNat 32 bytes.length :: packBytes bytes) (mk block offset bytes) := by
  have hn := toNat_ofNat_length h
  have hreads := Format.Reads.hd mk block offset (BitVec.ofNat 32 bytes.length) (packBytes bytes)
    (by rw [length_packBytes, hn])
  rwa [hn, take_unpack_pack] at hreads

/-- The header of a well-formed command has a format that reads the command's operand words. -/
theorem exists_format_reads {i : Instr} (hw : i.WellFormed) :
    ∃ f, formatOf (headerOpc (headerOf i)) = some f ∧ f.Reads (operandWords i) i := by
  cases i with
  | rgb5 r g b => exact ⟨_, rfl, .h3 .rgb5 r g b⟩
  | rgb8 r g b => exact ⟨_, rfl, .h3 .rgb8 r g b⟩
  | bgSet index color => exact ⟨_, rfl, .h2 .bgSet index color⟩
  | objSet index color => exact ⟨_, rfl, .h2 .objSet index color⟩
  | bgWrite block offset bytes => exact ⟨_, rfl, reads_tile_operandWords .bgWrite block offset hw⟩
  | objWrite block offset bytes => exact ⟨_, rfl, reads_tile_operandWords .objWrite block offset hw⟩
  | m3SetPixel x y color => exact ⟨_, rfl, .h3 .m3SetPixel x y color⟩
  | m4Flip => exact ⟨_, rfl, .h0 .m4Flip⟩
  | m4SetPixel x y color => exact ⟨_, rfl, .h3 .m4SetPixel x y color⟩
  | setAttr index field value => exact ⟨_, rfl, .h3 .setAttr index field value⟩
  | updateOam => exact ⟨_, rfl, .h0 .updateOam⟩
  | attr0Objy index => exact ⟨_, rfl, .h1 .attr0Objy index⟩
  | attr1Objx index => exact ⟨_, rfl, .h1 .attr1Objx index⟩
  | attr1Rot index => exact ⟨_, rfl, .h1 .attr1Rot index⟩
  | attr2Priority index => exact ⟨_, rfl, .h1 .attr2Priority index⟩
  | attr2Palette index => exact ⟨_, rfl, .h1 .attr2Palette index⟩

/-! The words that carry a command -/

/-- The words `words` carry the command `i`: they are its encoding, but for the padding bytes of a tile command's last data
word (30_encoding.md R53, R57, R58). -/
structure Carries (words : List Word) (i : Instr) : Prop where
  wellFormed : i.WellFormed
  length : words.length = i.words
  head : words.take 4 = (encode i).take 4
  bytes : ∀ (b o : Word) (bytes : List Byte), i = .bgWrite b o bytes ∨ i = .objWrite b o bytes →
    bytes = (unpackWords (words.drop 4)).take bytes.length

theorem length_encode (i : Instr) : (encode i).length = i.words := by
  cases i with
  | bgWrite block offset bytes => exact Laws.EncodedLength.bgWrite block offset bytes
  | objWrite block offset bytes => exact Laws.EncodedLength.objWrite block offset bytes
  | _ => rfl

theorem carries_encode {i : Instr} (hw : i.WellFormed) : Carries (encode i) i where
  wellFormed := hw
  length := length_encode i
  head := rfl
  bytes := by rintro b o bytes (rfl | rfl) <;> exact (take_unpack_pack bytes).symm

/-- Data words as many as the count `n` asks for give `n` bytes. -/
theorem length_take_unpackWords {data : List Word} {n : Nat} (h : data.length = dataWords n) :
    ((unpackWords data).take n).length = n := by
  rw [List.length_take, length_unpackWords, h, dataWords]
  omega

theorem tileBytesFit_take_unpackWords {data : List Word} {n : Word} (h : data.length = dataWords n.toNat) :
    tileBytesFit ((unpackWords data).take n.toNat) = true := by
  rw [tileBytesFit, length_take_unpackWords h]
  exact decide_eq_true n.isLt

/-- The words of a tile command carry it, whatever the padding bytes of the last data word are (30_encoding.md R57). -/
theorem carries_tile {opc : Byte} {mk : Word → Word → List Byte → Instr} (he : (Format.hd mk).Encodes opc)
    (block offset : Word) {n : Word} {data : List Word} (h : data.length = dataWords n.toNat) :
    Carries (opc.setWidth 32 :: block :: offset :: n :: data) (mk block offset ((unpackWords data).take n.toNat)) where
  wellFormed := by
    rcases he with ⟨-, rfl⟩ | ⟨-, rfl⟩ <;> exact tileBytesFit_take_unpackWords h
  length := by
    rcases he with ⟨-, rfl⟩ | ⟨-, rfl⟩ <;>
      rw [Instr.words, length_take_unpackWords h, ← h, Nat.add_comm] <;> rfl
  head := by
    rcases he with ⟨rfl, rfl⟩ | ⟨rfl, rfl⟩ <;> simp [encode, headerOf, operandWords, length_take_unpackWords h]
  bytes := by
    have hcount := length_take_unpackWords h
    rcases he with ⟨-, rfl⟩ | ⟨-, rfl⟩ <;> rintro b o bytes (hi | hi) <;> cases hi <;> rw [hcount] <;> rfl

/-- The words a format of the map reads carry the command it makes of them. -/
theorem carries_of_reads {opc : Byte} {f : Format} {used : List Word} {i : Instr} (he : f.Encodes opc)
    (hreads : f.Reads used i) : Carries (opc.setWidth 32 :: used) i := by
  cases hreads with
  | h0 i => exact he.2 ▸ carries_encode he.1
  | h1 mk a => exact (he a).2 ▸ carries_encode (he a).1
  | h2 mk a b => exact (he a b).2 ▸ carries_encode (he a b).1
  | h3 mk a b c => exact (he a b c).2 ▸ carries_encode (he a b c).1
  | hd mk a b n data h => exact carries_tile he a b h

/-- A decoded command is carried by the words the decoder took, as many as the command's length. -/
theorem carries_of_decode {ws rest : List Word} {i : Instr} (hd : decode ws = .command i rest) :
    ∃ used, ws = used ++ rest ∧ commandLength ws = used.length ∧ Carries used i := by
  obtain ⟨h, f, used, rfl, hr, hf, hreads⟩ := decode_eq_command_iff.1 hd
  refine ⟨h :: used, rfl, commandLength_of_reads hr hf hreads rest, ?_⟩
  rw [header_eq_opc hr]
  exact carries_of_reads (formatOf_encodes hf) hreads

/-- A command's header in front of words that are too few. -/
theorem decode_of_truncated (i : Instr) {ws : List Word}
    (h : (headerOf i :: ws).length < commandLength (headerOf i :: ws)) :
    decode (headerOf i :: ws) = .raises .truncatedCommand := by
  have hr := headerRsv_headerOf i
  obtain ⟨f, hf⟩ := exists_formatOf_headerOf i
  rw [decode_of_format hr hf]
  refine (readOperands_cases f ws).resolve_left ?_
  rintro ⟨j, rest, -, hread, -⟩
  obtain ⟨used, hused, hlen, -⟩ := carries_of_decode ((decode_of_format hr hf ws).trans hread)
  rw [hlen, hused, List.length_append] at h
  omega

/-- Where a header is outside the map (30_encoding.md R61). -/
theorem formatOf_headerOpc_eq_none {h : Word} (hr : headerRsv h = 0#24) (hi : ∀ i, headerOf i ≠ h) :
    formatOf (headerOpc h) = none := by
  rw [Option.eq_none_iff_forall_ne_some]
  intro f hf
  obtain ⟨i, hhead⟩ := exists_headerOf_of_formatOf hf
  exact hi i (hhead.trans (header_eq_opc hr).symm)

end Sys2Proof

namespace Sys2Proof.Machine

/-- A step of a ready block whose stream begins with no command raises the decoder's cause. -/
theorem step_of_raises {s : State} {c : Cause} (hr : s.Ready) (hd : decode s.stream = .raises c) :
    step s = .next (s.raised c) := by
  obtain ⟨hf, hw⟩ := hr
  simp only [step, hf, hw, State.fetch, hd, raiseUndefined]

/-! Lines of the assembler -/

/-- The characters that end no token (30_encoding.md R65). -/
def isPlain (c : Char) : Bool := c ∉ [';', ' ', '\t', '\r', ',', '[', ']']

theorem tokensFrom_cons_plain {c : Char} (hc : isPlain c = true) (token cs : List Char) :
    tokensFrom token (c :: cs) = tokensFrom (token ++ [c]) cs := by
  simp only [isPlain, List.mem_cons, List.not_mem_nil, or_false, decide_eq_true_eq, not_or] at hc
  obtain ⟨hsemi, hblank, htab, hcr, hcomma, hopen, hclose⟩ := hc
  simp [tokensFrom, hsemi, hblank, htab, hcr, hcomma, hopen, hclose]

/-- Characters that end no token are added to the token begun. -/
theorem tokensFrom_append_plain (rest : List Char) : ∀ (cs token : List Char), cs.all isPlain = true →
    tokensFrom token (cs ++ rest) = tokensFrom (token ++ cs) rest
  | [], token, _ => by rw [List.nil_append, List.append_nil]
  | c :: cs, token, h => by
    obtain ⟨hc, hcs⟩ := Bool.and_eq_true_iff.1 h
    rw [List.cons_append, tokensFrom_cons_plain hc, tokensFrom_append_plain rest cs _ hcs, List.append_assoc]
    rfl

/-- A semicolon and what follows it add no token (30_encoding.md R65). -/
theorem tokensFrom_append_comment (comment : List Char) : ∀ (line token : List Char), ';' ∉ line →
    tokensFrom token (line ++ ';' :: comment) = tokensFrom token line
  | [], token, _ => rfl
  | c :: cs, token, h => by
    obtain ⟨hc, hcs⟩ := not_or.1 (mt List.mem_cons.2 h)
    simp only [List.cons_append, tokensFrom, tokensFrom_append_comment comment cs _ hcs]

/-- The words of a line depend on its tokens alone. -/
theorem assembleLine_congr {line line' : List Char} (h : tokensFrom [] line = tokensFrom [] line') :
    assembleLine line = assembleLine line' := by
  rw [assembleLine, assembleLine, h]

/-- The header words of the mnemonics are their opcodes (30_encoding.md R60). -/
theorem mnemonicHeaders_eq : mnemonicHeaders = mnemonics.map fun row => (row.1, row.2.setWidth 32) := rfl

/-- A name with an opcode is a mnemonic, and the opcode gives its header. -/
theorem mem_mnemonicHeaders_of_opcodeOf {name : List Char} {opc : Byte} (h : opcodeOf name = some opc) :
    ∃ n : String, n.toList = name ∧ (n, opc.setWidth 32) ∈ mnemonicHeaders := by
  obtain ⟨row, hfind, rfl⟩ := Option.map_eq_some_iff.1 h
  have hname := List.find?_some hfind
  refine ⟨row.1, of_decide_eq_true hname, ?_⟩
  rw [mnemonicHeaders_eq]
  exact List.mem_map.2 ⟨row, List.mem_of_find?_eq_some hfind, rfl⟩

/-- A mnemonic has one header. -/
theorem header_unique {name : String} {h h' : Word} (hmem : (name, h) ∈ mnemonicHeaders)
    (hmem' : (name, h') ∈ mnemonicHeaders) : h = h' := by
  have hnodup : (mnemonicHeaders.map Prod.fst).Nodup := by decide
  exact congrArg Prod.snd (List.inj_on_of_nodup_map hnodup hmem hmem' rfl)

/-- A mnemonic is a token: it is not empty and none of its characters ends a token. -/
theorem mnemonic_plain : ∀ row ∈ mnemonicHeaders, row.1.toList ≠ [] ∧ row.1.toList.all isPlain = true := by
  decide +kernel

/-- The command parsed from the operands of an opcode has that opcode as its header. -/
theorem headerOf_parseOperands {opc : Byte} {f : Format} (hf : formatOf opc = some f) {operands : List (List Char)} {i : Instr}
    (hp : parseOperands f operands = some i) : headerOf i = opc.setWidth 32 := by
  have he := formatOf_encodes hf
  unfold parseOperands at hp
  split at hp
  · cases hp
    exact headerOf_eq_of_encode he.2
  · obtain ⟨a, -, rfl⟩ := Option.map_eq_some_iff.1 hp
    exact headerOf_eq_of_encode (he a).2
  · split at hp <;> cases hp
    exact headerOf_eq_of_encode (he _ _).2
  · split at hp <;> cases hp
    exact headerOf_eq_of_encode (he _ _ _).2
  · split at hp <;> cases hp
    rcases he with ⟨rfl, rfl⟩ | ⟨rfl, rfl⟩ <;> rfl
  · cases hp

theorem commandWords_eq_some_iff {i : Instr} {ws : List Word} :
    commandWords i = some ws ↔ i.WellFormed ∧ encode i = ws := by
  rw [commandWords, Option.ite_none_right_eq_some, Option.some_inj]

/-- Everything an assembled line can be: no token and no words, or a mnemonic and the words of one of its commands. -/
theorem assembleLine_cases {line : List Char} {ws : List Word} (h : assembleLine line = some ws) :
    (tokensFrom [] line = [] ∧ ws = []) ∨
    ∃ (i : Instr) (name : String), ws = encode i ∧ i.WellFormed ∧
      (tokensFrom [] line).head? = some name.toList ∧ (name, headerOf i) ∈ mnemonicHeaders := by
  unfold assembleLine at h
  cases htokens : tokensFrom [] line with
  | nil =>
    rw [htokens] at h
    cases h
    exact .inl ⟨rfl, rfl⟩
  | cons name operands =>
    cases hopc : opcodeOf name with
    | none => simp [htokens, hopc] at h
    | some opc =>
      cases hf : formatOf opc with
      | none => simp [htokens, hopc, hf] at h
      | some f =>
        simp only [htokens, hopc, hf] at h
        obtain ⟨i, hp, hw⟩ := Option.bind_eq_some_iff.1 h
        obtain ⟨hwf, rfl⟩ := commandWords_eq_some_iff.1 hw
        obtain ⟨n, rfl, hmem⟩ := mem_mnemonicHeaders_of_opcodeOf hopc
        exact .inr ⟨i, n, rfl, hwf, rfl, headerOf_parseOperands hf hp ▸ hmem⟩

/-- A line whose first token is a mnemonic has, if it assembles, the mnemonic's header in front. -/
theorem head?_of_assembleLine {name : String} {header : Word} (hmem : (name, header) ∈ mnemonicHeaders) {line : List Char}
    (hfirst : (tokensFrom [] line).head? = some name.toList) {ws : List Word} (h : assembleLine line = some ws) :
    ws.head? = some header := by
  rcases assembleLine_cases h with ⟨hnone, -⟩ | ⟨i, n, rfl, -, hn, hi⟩
  · simp [hnone] at hfirst
  · obtain rfl : n = name := String.toList_inj.1 (Option.some.inj (hn.symm.trans hfirst))
    exact congrArg some (header_unique hi hmem)

/-- A mnemonic at the end of a line, or before a blank, is the line's first token. -/
theorem head?_tokensFrom_mnemonic {name : String} {header : Word} (hmem : (name, header) ∈ mnemonicHeaders)
    (rest : List Char) :
    (tokensFrom [] name.toList).head? = some name.toList ∧
    (tokensFrom [] (name.toList ++ ' ' :: rest)).head? = some name.toList := by
  obtain ⟨hne, hplain⟩ := mnemonic_plain _ hmem
  have hempty : name.toList.isEmpty = false := by simpa using hne
  have hend := tokensFrom_append_plain [] name.toList [] hplain
  rw [List.append_nil] at hend
  rw [hend, tokensFrom_append_plain (' ' :: rest) _ _ hplain]
  simp [tokensFrom, addToken, hempty]

/-! The statements of 30_encoding.md -/

/-- Settles O5: the format of the command's header reads its operand words (`exists_format_reads`). -/
theorem decodeOfEncodeIsTheCommand : Obligations.DecodeOfEncodeIsTheCommand := by
  intro i rest hw
  obtain ⟨f, hf, hreads⟩ := exists_format_reads hw
  exact decode_eq_command_iff.2 ⟨headerOf i, f, operandWords i, rfl, headerRsv_headerOf i, hf, hreads⟩

/-- Settles O3: the bytes are the first `n` of the data words' (`getElem?_unpackWords`). -/
theorem tileBytesComeFromDataWords : Obligations.TileBytesComeFromDataWords := by
  intro block offset n data rest hdata
  refine ⟨(unpackWords data).take n.toNat, ?_, ?_, length_take_unpackWords hdata, fun j hj => ?_⟩
  · rw [decode_bgWrite, readOperands_hd _ _ _ _ _ _ hdata]
  · rw [decode_objWrite, readOperands_hd _ _ _ _ _ _ hdata]
  · rw [List.getElem?_take_of_lt hj, getElem?_unpackWords]

/-- Settles O6: the words the decoder took carry the command (`carries_of_decode`). -/
theorem decodedWordsAreTheEncoding : Obligations.DecodedWordsAreTheEncoding := by
  intro ws rest i hd
  obtain ⟨used, hws, hlen, hc⟩ := carries_of_decode hd
  exact ⟨hc.wellFormed, used, hws, hc.length, hlen.trans hc.length, hc.head, hc.bytes⟩

/-- Settles O7: every opcode of the map is some command's header, and none of those lies in the ranges. -/
theorem illegalOpcodesRaise : Obligations.IllegalOpcodesRaise := by
  intro s h ws hready hstream hranges
  have hr : headerRsv h = 0#24 := (headerRsv_eq_zero_iff h).2 (by omega)
  have hnone : formatOf (headerOpc h) = none := by
    refine formatOf_headerOpc_eq_none hr fun i hi => ?_
    subst hi
    cases i <;> simp [headerOf] at hranges
  exact step_of_raises hready (hstream ▸ decode_of_illegal hr hnone ws)

/-- Settles O8: the decoder tests the reserved bits first. -/
theorem reservedHeaderBitsRaise : Obligations.ReservedHeaderBitsRaise := by
  intro s h ws hready hstream hh
  have hr : headerRsv h ≠ 0#24 := mt (headerRsv_eq_zero_iff h).1 (by omega)
  exact step_of_raises hready (hstream ▸ decode_of_reserved hr ws)

/-- Settles O9: had the decoder read a command, its words would be as many as its length (`decode_of_truncated`). -/
theorem truncatedCommandsRaise : Obligations.TruncatedCommandsRaise := by
  intro s i ws hready hstream hlen
  rw [hstream] at hlen
  exact step_of_raises hready (hstream ▸ decode_of_truncated i hlen)

/-- Settles O12: the examples by evaluation, the comment by the tokens of the line. -/
theorem assemblerExamplesAndComments : Obligations.AssemblerExamplesAndComments :=
  ⟨by decide +kernel, by decide +kernel, by decide +kernel, by decide +kernel,
    fun line comment h => assembleLine_congr (tokensFrom_append_comment comment line [] h)⟩

/-- Settles O13, from what an assembled line can be (`assembleLine_cases`) and its first token. -/
theorem assembledLineIsOneCommand : Obligations.AssembledLineIsOneCommand := by
  refine ⟨fun line ws h => (assembleLine_cases h).imp_left And.right, fun name header rest ws hmem => ?_⟩
  obtain ⟨halone, hblank⟩ := head?_tokensFrom_mnemonic hmem rest
  exact ⟨head?_of_assembleLine hmem halone, head?_of_assembleLine hmem hblank⟩

/-- Settles O1: each stream begins with a header of the map. -/
theorem specWordsDecode : Obligations.SpecWordsDecode := ⟨rfl, rfl, rfl, rfl, rfl⟩

/-- Settles O2: a header without data words makes its command of the words its format reads, by computation. -/
theorem opcodeMapReadsOperands : Obligations.OpcodeMapReadsOperands := fun _ _ _ _ =>
  ⟨rfl, rfl, rfl, rfl, rfl, rfl, rfl, rfl, rfl, rfl, rfl, rfl, rfl, rfl⟩

/-- Settles O4: only a tile command's length depends on more than its header. -/
theorem commandLengths : Obligations.CommandLengths := by
  refine ⟨fun i ws hbg hobj => ?_, fun a b n ws => ⟨rfl, rfl⟩, rfl, rfl,
    fun a b c => ⟨rfl, rfl, rfl, rfl, rfl, rfl, rfl, rfl, rfl, rfl, rfl, rfl⟩⟩
  cases i with
  | bgWrite block offset bytes => exact absurd rfl (hbg block offset bytes)
  | objWrite block offset bytes => exact absurd rfl (hobj block offset bytes)
  | _ => rw [headerOf]; rfl

end Sys2Proof.Machine
end

section
/-! The colour codec and the palettes (40_color_palette.md): the word RGB5 and RGB8 respond, its lanes, and the slot a palette
command writes. -/

namespace Sys2Proof.Machine

/-! Operands in range, by their unsigned values -/

/-- An operand's signed range test is one bound on its unsigned value. -/
theorem toInt_range_iff {n : Nat} (hn : n ≤ 2 ^ 31) (w : Word) : (0 ≤ w.toInt ∧ w.toInt < (n : Int)) ↔ w.toNat < n := by
  have hw := w.isLt
  rw [BitVec.toInt_eq_toNat_cond]
  split <;> omega

theorem inRange_iff_toNat_lt {n : Nat} (hn : n ≤ 2 ^ 31) (w : Word) : inRange w n = true ↔ w.toNat < n :=
  (inRange_iff w n).trans (toInt_range_iff hn w)

theorem operandNat_of_toNat_lt {w : Word} {n : Nat} (hn : n ≤ 2 ^ 31) (h : w.toNat < n) : operandNat w = w.toNat :=
  operandNat_eq_toNat ((toInt_range_iff hn w).2 h).1

/-- The three channels of a packing command are below `limit`. -/
abbrev ChannelsBelow (limit : Nat) (r g b : Word) : Prop := r.toNat < limit ∧ g.toNat < limit ∧ b.toNat < limit

theorem channelsBelow_of_toInt {limit : Nat} (hlimit : limit ≤ 2 ^ 31) {r g b : Word}
    (h : (0 ≤ r.toInt ∧ r.toInt < (limit : Int)) ∧ (0 ≤ g.toInt ∧ g.toInt < (limit : Int)) ∧
      (0 ≤ b.toInt ∧ b.toInt < (limit : Int))) : ChannelsBelow limit r g b :=
  h.imp (toInt_range_iff hlimit r).1 (And.imp (toInt_range_iff hlimit g).1 (toInt_range_iff hlimit b).1)

/-- The upper five bits of 8-bit channels are 5-bit channels. -/
theorem channelsBelow_shiftRight {r g b : Word} (h : ChannelsBelow 256 r g b) :
    ChannelsBelow 32 (r >>> 3) (g >>> 3) (b >>> 3) := by
  simp only [ChannelsBelow, BitVec.toNat_ushiftRight] at h ⊢
  omega

/-! The packed colour -/

/-- Extending the 15 bits of a packed colour loses none of them. -/
theorem zextHalf_packColor {r g b : Nat} (hr : r < 32) (hg : g < 32) (hb : b < 32) :
    zextHalf (packColor r g b) = BitVec.ofNat 32 ((b <<< 10) ||| (g <<< 5) ||| r) := by
  have hlt : (b <<< 10) ||| (g <<< 5) ||| r < 2 ^ 16 :=
    Nat.or_lt_two_pow (Nat.or_lt_two_pow (by omega) (by omega)) (by omega)
  apply BitVec.eq_of_toNat_eq
  rw [zextHalf_toNat, packColor, BitVec.toNat_ofNat, BitVec.toNat_ofNat, Nat.mod_eq_of_lt hlt, Nat.mod_eq_of_lt (by omega)]

/-- Each lane of a packed colour is its own channel, and the bits above the lanes are 0 (40_color_palette.md R71). -/
theorem zextHalf_packColor_lanes {r g b : Nat} (hr : r < 32) (hg : g < 32) (hb : b < 32) :
    (zextHalf (packColor r g b)).extractLsb' 0 5 = BitVec.ofNat 5 r ∧
    (zextHalf (packColor r g b)).extractLsb' 5 5 = BitVec.ofNat 5 g ∧
    (zextHalf (packColor r g b)).extractLsb' 10 5 = BitVec.ofNat 5 b ∧
    (zextHalf (packColor r g b)).extractLsb' 15 17 = 0#17 := by
  have hword : (zextHalf (packColor r g b)).toNat = b * 1024 + g * 32 + r := by
    rw [zextHalf_toNat, packColor_toNat hr hg hb]
  refine ⟨?_, ?_, ?_, ?_⟩ <;> apply BitVec.eq_of_toNat_eq <;>
    rw [BitVec.extractLsb'_toNat, hword, BitVec.toNat_ofNat, Nat.shiftRight_eq_div_pow] <;> omega

/-- RGB5 and RGB8 with their channels in range respond the packed colour of the shifted channels. -/
theorem packCommand_of_channelsBelow {limit : Nat} (hlimit : limit ≤ 2 ^ 31) (shift : Nat) {r g b : Word}
    (h : ChannelsBelow limit r g b) (s : State) :
    packCommand limit shift r g b s
      = .next (s.respond (zextHalf (packColor (r.toNat >>> shift) (g.toNat >>> shift) (b.toNat >>> shift)))).advance := by
  obtain ⟨hr, hg, hb⟩ := h
  have hrange : (inRange r limit && inRange g limit && inRange b limit) = true := by
    simp only [inRange_iff_toNat_lt hlimit, Bool.and_eq_true, hr, hg, hb, and_self]
  rw [packCommand, if_pos hrange, operandNat_of_toNat_lt hlimit hr, operandNat_of_toNat_lt hlimit hg,
    operandNat_of_toNat_lt hlimit hb, complete]

theorem exec_rgb5_of_channelsBelow {r g b : Word} (h : ChannelsBelow 32 r g b) (s : State) :
    exec (.rgb5 r g b) s = .next { s with
      resp := s.resp ++ [BitVec.ofNat 32 ((b.toNat <<< 10) ||| (g.toNat <<< 5) ||| r.toNat)], pc := s.pc + 1 } := by
  have ⟨hr, hg, hb⟩ := h
  rw [← zextHalf_packColor hr hg hb]
  exact packCommand_of_channelsBelow (by decide) 0 h s

theorem exec_rgb8_of_channelsBelow {r g b : Word} (h : ChannelsBelow 256 r g b) (s : State) :
    exec (.rgb8 r g b) s = exec (.rgb5 (r >>> 3) (g >>> 3) (b >>> 3)) s :=
  (packCommand_of_channelsBelow (by decide) 3 h s).trans
    (packCommand_of_channelsBelow (by decide) 0 (channelsBelow_shiftRight h) s).symm

/-- The lanes of a response to channels of which five bits are left after the shift. -/
theorem packCommand_lanes {limit shift : Nat} (hlimit : limit ≤ 2 ^ 31) (hshift : limit ≤ 2 ^ shift * 32) {r g b : Word}
    {s t : State} (h : ChannelsBelow limit r g b) (hx : packCommand limit shift r g b s = .next t) :
    ∃ c : Word, t.resp = s.resp ++ [c] ∧ c.extractLsb' 0 5 = r.extractLsb' shift 5 ∧
      c.extractLsb' 5 5 = g.extractLsb' shift 5 ∧ c.extractLsb' 10 5 = b.extractLsb' shift 5 ∧
      c.extractLsb' 15 17 = 0#17 := by
  have hchannel : ∀ w : Word, w.toNat < limit → w.toNat >>> shift < 32 := fun w hw => by
    rw [Nat.shiftRight_eq_div_pow]
    exact Nat.div_lt_of_lt_mul (hw.trans_le hshift)
  obtain rfl := Host.Outcome.next.inj (hx.symm.trans (packCommand_of_channelsBelow hlimit shift h s))
  obtain ⟨hr, hg, hb⟩ := h
  exact ⟨_, rfl, zextHalf_packColor_lanes (hchannel r hr) (hchannel g hg) (hchannel b hb)⟩

/-! The slot of a palette command -/

/-- A palette command with its index in range writes the low half of the colour to its slot. -/
theorem paletteSet_of_lt (base : Nat) {index : Word} (color : Word) (s : State) (hi : index.toNat < 256) :
    paletteSet base index color s = .next (s.writeHalf (base + 2 * index.toNat) (color.setWidth 16)).advance := by
  rcases paletteSet_cases base index color s with ⟨-, h⟩ | ⟨hr, -⟩
  · rw [h, operandNat_of_toNat_lt (by decide) hi, paletteSlot, low16]
  · cases hr.symm.trans ((inRange_iff_toNat_lt (by decide) index).2 hi)

/-- A palette command with its index in range completes with the colour in its slot and every other byte as before. -/
theorem paletteSet_writes_slot {base : Nat} (hbase : base + 512 ≤ Config.spaceBytes) {index : Word} (color : Word) {s : State}
    (hindex : 0 ≤ index.toInt ∧ index.toInt < 256) (hm : s.mem.wf = true) :
    ∃ t, paletteSet base index color s = .next t ∧ OnlyMemory s t ∧
      t.mem.readHalf (base + 2 * index.toNat) = color.setWidth 16 ∧ MemorySameOutside (base + 2 * index.toNat) 2 s t := by
  have hi : index.toNat < 256 := (toInt_range_iff (by decide) index).1 hindex
  have hslot : base + 2 * index.toNat + 2 ≤ Config.spaceBytes := by omega
  refine ⟨_, paletteSet_of_lt base color s hi, rfl, readHalf_writeHalf_same hm _ _ hslot, fun x hx => ?_⟩
  rw [advance_mem, writeHalf_mem, read_writeHalf hm _ x _ hslot, if_neg (by omega), if_neg (by omega)]

theorem paletteSet_of_outOfRange (base : Nat) {index : Word} (color : Word) (s : State)
    (hindex : ¬ (0 ≤ index.toInt ∧ index.toInt < 256)) :
    paletteSet base index color s = .next (s.raised .palIndexRange) := by
  rcases paletteSet_cases base index color s with ⟨hr, -⟩ | ⟨-, h⟩
  · exact absurd ((inRange_iff index 256).1 hr) hindex
  · exact h

/-- A slot keeps what was set through a palette command on a slot that shares no byte with it. -/
theorem readHalf_paletteSet_paletteSet {base base' : Nat} (hbase : base + 512 ≤ Config.spaceBytes)
    (hbase' : base' + 512 ≤ Config.spaceBytes) {i j c d : Word} {s t u : State} (hm : s.mem.wf = true) (hi : i.toNat < 256)
    (hj : j.toNat < 256)
    (hapart : base + 2 * i.toNat + 2 ≤ base' + 2 * j.toNat ∨ base' + 2 * j.toNat + 2 ≤ base + 2 * i.toNat)
    (hset : paletteSet base i c s = .next t) (hother : paletteSet base' j d t = .next u) :
    u.mem.readHalf (base + 2 * i.toNat) = c.setWidth 16 := by
  obtain rfl := Host.Outcome.next.inj (hset.symm.trans (paletteSet_of_lt base c s hi))
  obtain rfl := Host.Outcome.next.inj (hother.symm.trans (paletteSet_of_lt base' d _ hj))
  have hslot : base + 2 * i.toNat + 2 ≤ Config.spaceBytes := by omega
  calc ((s.mem.writeHalf (base + 2 * i.toNat) (c.setWidth 16)).writeHalf (base' + 2 * j.toNat) (d.setWidth 16)).readHalf
        (base + 2 * i.toNat)
    _ = (s.mem.writeHalf (base + 2 * i.toNat) (c.setWidth 16)).readHalf (base + 2 * i.toNat) :=
      readHalf_writeHalf_other (wf_writeHalf hm _ _ hslot) _ _ _ (by omega) hapart
    _ = c.setWidth 16 := readHalf_writeHalf_same hm _ _ hslot

/-! The statements of 40_color_palette.md -/

/-- Settles O14: in range the response is the packed colour, out of range `packCommand_cases` gives some word. -/
theorem rgb5RespondsPackedColor : Obligations.Rgb5RespondsPackedColor := fun r g b s =>
  ⟨rfl, fun h => exec_rgb5_of_channelsBelow (channelsBelow_of_toInt (by decide) h) s,
    fun _ => packCommand_cases 32 0 r g b s⟩

/-- Settles O15: in range RGB8 is RGB5 of the shifted channels, and responds what that does. -/
theorem rgb8RespondsPackedColor : Obligations.Rgb8RespondsPackedColor := by
  refine fun r g b s => ⟨rfl, fun h => ?_, fun _ => packCommand_cases 256 3 r g b s⟩
  have hchannels : ChannelsBelow 256 r g b := channelsBelow_of_toInt (by decide) h
  have hrgb5 := exec_rgb8_of_channelsBelow hchannels s
  exact ⟨hrgb5.trans (exec_rgb5_of_channelsBelow (channelsBelow_shiftRight hchannels) s), hrgb5⟩

/-- Settles O16: both commands pack five bits of each channel, RGB5 from bit 0 and RGB8 from bit 3. -/
theorem packedColorLanes : Obligations.PackedColorLanes := fun r g b s t => by
  refine ⟨fun h hx => ?_, packCommand_lanes (limit := 256) (shift := 3) (by decide) (by decide)⟩
  simp only [BitVec.setWidth_eq_extractLsb' (show 5 ≤ 32 by decide)]
  exact packCommand_lanes (limit := 32) (shift := 0) (by decide) (by decide) h hx

/-- Settles O17: BG_SET is the palette write at the background palette's base. -/
theorem bgSetWritesItsSlot : Obligations.BgSetWritesItsSlot := fun _ color s =>
  ⟨rfl, paletteSet_writes_slot (base := 0x05000000) (by decide) color, paletteSet_of_outOfRange 0x05000000 color s⟩

/-- Settles O18: OBJ_SET is the same write at the object palette's base. -/
theorem objSetWritesItsSlot : Obligations.ObjSetWritesItsSlot := fun _ color s =>
  ⟨rfl, paletteSet_writes_slot (base := 0x05000200) (by decide) color, paletteSet_of_outOfRange 0x05000200 color s⟩

/-- Settles O19: two slots of one table are two bytes apart, and the last background slot ends where the object palette
begins. -/
theorem paletteSlotsAreIndependent : Obligations.PaletteSlotsAreIndependent := by
  intro i j c d s t u hm hi hj
  have hbg : 0x05000000 + 512 ≤ Config.spaceBytes := by decide
  have hobj : 0x05000200 + 512 ≤ Config.spaceBytes := by decide
  refine ⟨fun hset => ⟨fun hne => ?_, ?_⟩, fun hset => ⟨fun hne => ?_, ?_⟩⟩
  · exact readHalf_paletteSet_paletteSet hbg hbg hm hi hj (by bv_omega) hset
  · exact readHalf_paletteSet_paletteSet hbg hobj hm hi hj (by omega) hset
  · exact readHalf_paletteSet_paletteSet hobj hobj hm hi hj (by bv_omega) hset
  · exact readHalf_paletteSet_paletteSet hobj hbg hm hi hj (by omega) hset

end Sys2Proof.Machine
end

section
/-! The tile engine (41_tile_transfer.md): what a transfer does by its operands, that 64 bytes of offset are one block, and the
form of each halfword access of TileCopy. -/

namespace Sys2Proof.Machine

/-- A covered byte of a transfer is one of its bytes, not a default. -/
theorem some_getD_eq_getElem? {bytes : List Byte} {j : Nat} (hj : j < bytes.length) :
    some (bytes.getD j 0#8) = bytes[j]? := by
  rw [List.getElem?_eq_getElem hj, List.getD_eq_getElem _ _ hj]

/-! A tile command by its operands -/

/-- The destination in the integers of 41_tile_transfer.md R73. -/
theorem tileDest_cast (base : Nat) {block offset : Word} (hb : 0 ≤ block.toInt) (ho : 0 ≤ offset.toInt) :
    (tileDest base block offset : Int) = base + (block.toInt * 64 + offset.toInt) := by
  rw [← operandNat_cast hb, ← operandNat_cast ho, tileDest, Config.tileBlockBytes]
  omega

theorem tileWrite_of_legal (base : Nat) {size : Nat} {block offset : Word} {bytes : List Byte} (s : State)
    (hb : 0 ≤ block.toInt) (ho : 0 ≤ offset.toInt) (hn : block.toInt * 64 + offset.toInt + (bytes.length : Int) ≤ size) :
    tileWrite base size block offset bytes s = .next (s.tileCopy (tileDest base block offset) bytes).advance := by
  rcases tileWrite_cases base size block offset bytes s with ⟨-, -, -, h⟩ | ⟨hneg, -⟩ | ⟨-, hover, -⟩
  · exact h
  · rw [Bool.or_eq_true, isNegative_iff, isNegative_iff] at hneg
    omega
  · rw [tileOverruns_iff] at hover
    omega

theorem tileWrite_of_negative (base size : Nat) {block offset : Word} (bytes : List Byte) (s : State)
    (hneg : block.toInt < 0 ∨ offset.toInt < 0) :
    tileWrite base size block offset bytes s = .next (s.raised .tileNegative) := by
  rw [← isNegative_iff, ← isNegative_iff, ← Bool.or_eq_true] at hneg
  rw [tileWrite, if_pos hneg, raiseUndefined]

theorem tileWrite_of_overrun (base : Nat) {size : Nat} {block offset : Word} {bytes : List Byte} (s : State)
    (hb : 0 ≤ block.toInt) (ho : 0 ≤ offset.toInt)
    (hn : (size : Int) < block.toInt * 64 + offset.toInt + (bytes.length : Int)) :
    tileWrite base size block offset bytes s = .next (s.raised .tileOverrun) := by
  rcases tileWrite_cases base size block offset bytes s with ⟨-, -, hover, -⟩ | ⟨hneg, -⟩ | ⟨-, -, h⟩
  · cases hover.symm.trans ((tileOverruns_iff size block offset bytes.length).2 hn)
  · rw [Bool.or_eq_true, isNegative_iff, isNegative_iff] at hneg
    omega
  · exact h

/-- A legal transfer into a region of the address space completes with its bytes at the destination and every other byte as
before (41_tile_transfer.md R74). -/
theorem tileWrite_copies_bytes {base size : Nat} (hspace : base + size ≤ Config.spaceBytes) {block offset : Word}
    {bytes : List Byte} {s : State} (hb : 0 ≤ block.toInt) (ho : 0 ≤ offset.toInt)
    (hn : block.toInt * 64 + offset.toInt + (bytes.length : Int) ≤ size) (hm : s.mem.wf = true) :
    ∃ t, tileWrite base size block offset bytes s = .next t ∧ OnlyMemory s t ∧
      (∀ j, j < bytes.length → bytes[j]? = some (t.mem.read (base + block.toNat * 64 + offset.toNat + j))) ∧
      MemorySameOutside (base + block.toNat * 64 + offset.toNat) bytes.length s t := by
  have hdest : tileDest base block offset = base + block.toNat * 64 + offset.toNat := by
    rw [tileDest, operandNat_eq_toNat hb, operandNat_eq_toNat ho]
  have hend : tileDest base block offset + bytes.length ≤ Config.spaceBytes := by
    have hcast := tileDest_cast base hb ho
    omega
  rw [← hdest]
  refine ⟨_, tileWrite_of_legal base s hb ho hn, rfl, fun j hj => ?_, fun x hx => ?_⟩ <;>
    rw [advance_mem, tileCopy_mem, read_writeRun hm _ _ bytes hend]
  · rw [if_pos (by omega), Nat.add_sub_cancel_left, some_getD_eq_getElem? hj]
  · rw [if_neg (by omega)]

/-- The outcome of a tile command with operands that are not negative depends on `blk*64 + off` alone. -/
theorem tileWrite_congr (base size : Nat) {block block' offset offset' : Word} (bytes : List Byte) (s : State)
    (hb : 0 ≤ block.toInt) (ho : 0 ≤ offset.toInt) (hb' : 0 ≤ block'.toInt) (ho' : 0 ≤ offset'.toInt)
    (hsum : block'.toInt * 64 + offset'.toInt = block.toInt * 64 + offset.toInt) :
    tileWrite base size block' offset' bytes s = tileWrite base size block offset bytes s := by
  by_cases hn : block.toInt * 64 + offset.toInt + (bytes.length : Int) ≤ size
  · have hdest : tileDest base block' offset' = tileDest base block offset := by
      rw [← Int.natCast_inj, tileDest_cast base hb ho, tileDest_cast base hb' ho', hsum]
    rw [tileWrite_of_legal base s hb ho hn, tileWrite_of_legal base s hb' ho' (hsum ▸ hn), hdest]
  · rw [not_le] at hn
    rw [tileWrite_of_overrun base s hb ho hn, tileWrite_of_overrun base s hb' ho' (hsum ▸ hn)]

/-- One block more and 64 bytes of offset less is the same transfer, into any region (41_tile_transfer.md R79). -/
theorem tileWrite_nextBlock (base size : Nat) {block offset : Word} (bytes : List Byte) (s : State) (hb : 0 ≤ block.toInt)
    (hb' : block.toInt + 1 < 2 ^ 31) (ho : 64 ≤ offset.toInt) :
    tileWrite base size (block + 1#32) (offset - 64#32) bytes s = tileWrite base size block offset bytes s := by
  have hblock : (block + 1#32).toInt = block.toInt + 1 :=
    BitVec.toInt_add_of_not_saddOverflow <| by
      simp only [BitVec.saddOverflow, show (1#32).toInt = 1 from rfl, Bool.or_eq_true, decide_eq_true_eq]
      omega
  have hoffset : (offset - 64#32).toInt = offset.toInt - 64 :=
    BitVec.toInt_sub_of_not_ssubOverflow <| by
      have hlt := offset.toInt_lt
      simp only [BitVec.ssubOverflow, show (64#32).toInt = 64 from rfl, Bool.or_eq_true, decide_eq_true_eq]
      omega
  exact tileWrite_congr base size bytes s hb (by omega) (by omega) (by omega) (by omega)

/-- A tile command with fewer data words than carry its `n` bytes is truncated (30_encoding.md R63). -/
theorem decode_of_missingData {header : Word} {mk : Word → Word → List Byte → Instr} {block offset n : Word}
    {ws : List Word} (hr : headerRsv header = 0#24) (hf : formatOf (headerOpc header) = some (.hd mk))
    (hshort : ws.length < dataWords n.toNat) :
    decode (header :: block :: offset :: n :: ws) = .raises .truncatedCommand := by
  rw [decode_of_format hr hf, readOperands, if_pos hshort]

/-! The form of an access of TileCopy -/

section
variable {d h : Nat} {bytes : List Byte}

theorem tileHalf_of_covered (hlo : d ≤ h) (hhi : h + 1 < d + bytes.length) :
    tileHalf d bytes h = .write h (bytes.getD (h + 1 - d) 0#8 ++ bytes.getD (h - d) 0#8) := by
  have h1 : h < d + bytes.length := by omega
  have h2 : d ≤ h + 1 := by omega
  simp [tileHalf, hlo, hhi, h1, h2]

theorem tileHalf_of_lowCovered (hlo : d ≤ h) (hend : h + 1 = d + bytes.length) :
    tileHalf d bytes h = .merge h 0xFF00#16 (0#8 ++ bytes.getD (h - d) 0#8) := by
  have h1 : h < d + bytes.length := by omega
  simp [tileHalf, hlo, hend, h1]

theorem tileHalf_of_highCovered (hd : h + 1 = d) (hne : bytes ≠ []) :
    tileHalf d bytes h = .merge h 0x00FF#16 (bytes.getD 0 0#8 ++ 0#8) := by
  have hpos := List.length_pos_iff.2 hne
  have h1 : ¬ d ≤ h := by omega
  simp [tileHalf, hd, h1, hpos]

end

theorem addr_tilePlan (d : Nat) {bytes : List Byte} (hne : bytes ≠ []) :
    (tilePlan d bytes).map BusOp.addr
      = (List.range ((d % 2 + bytes.length + 1) / 2)).map fun j => d - d % 2 + 2 * j := by
  rw [tilePlan, if_neg (by rwa [List.isEmpty_iff]), List.map_map]
  exact List.map_congr_left fun j _ => addr_tileHalf d _ bytes

/-- Every access of a transfer is the one TileCopy makes to the halfword at its address. -/
theorem eq_tileHalf_of_mem_tilePlan {d : Nat} {bytes : List Byte} {op : BusOp} (hop : op ∈ tilePlan d bytes) :
    op = tileHalf d bytes op.addr := by
  unfold tilePlan at hop
  split at hop
  · cases hop
  · obtain ⟨j, -, rfl⟩ := List.mem_map.1 hop
    rw [addr_tileHalf]

/-! The statements of 41_tile_transfer.md -/

/-- Settles O20: BG_WRITE is the transfer into background tile memory. -/
theorem bgWriteCopiesItsBytes : Obligations.BgWriteCopiesItsBytes := fun _ _ bytes s =>
  ⟨rfl, tileWrite_copies_bytes (base := 0x06000000) (size := 0x10000) (by decide), tileWrite_of_negative _ _ bytes s,
    tileWrite_of_overrun _ s, fun _ _ => decode_of_missingData rfl rfl⟩

/-- Settles O21: OBJ_WRITE is the same transfer into object tile memory. -/
theorem objWriteCopiesItsBytes : Obligations.ObjWriteCopiesItsBytes := fun _ _ bytes s =>
  ⟨rfl, tileWrite_copies_bytes (base := 0x06010000) (size := 0x8000) (by decide), tileWrite_of_negative _ _ bytes s,
    tileWrite_of_overrun _ s, fun _ _ => decode_of_missingData rfl rfl⟩

/-- Settles O22: both pairs of operands give `blk*64 + off` the same value (`tileWrite_congr`). -/
theorem tileBlocksAre64Bytes : Obligations.TileBlocksAre64Bytes := fun _ _ bytes s hb hb' ho =>
  ⟨tileWrite_nextBlock _ _ bytes s hb hb' ho, tileWrite_nextBlock _ _ bytes s hb hb' ho⟩

/-- Settles O23: each access is TileCopy's of its halfword, whose form is by the bytes the transfer covers. -/
theorem tileCopyAccessesHalfwords : Obligations.TileCopyAccessesHalfwords := by
  refine ⟨fun _ => rfl, fun d bytes hne => ⟨addr_tilePlan d hne, fun op hop => ⟨?_, ?_, fun hd => ?_⟩⟩⟩
  · rintro ⟨hlo, hhi⟩
    obtain ⟨hlow, hhigh⟩ := half_bytes_append (bytes.getD (op.addr + 1 - d) 0#8) (bytes.getD (op.addr - d) 0#8)
    refine ⟨_, (eq_tileHalf_of_mem_tilePlan hop).trans (tileHalf_of_covered hlo hhi), ?_, ?_⟩
    · rw [hlow, some_getD_eq_getElem? (by omega)]
    · rw [hhigh, some_getD_eq_getElem? (by omega)]
  · rintro ⟨hlo, hend⟩
    obtain ⟨hlow, hhigh⟩ := half_bytes_append 0#8 (bytes.getD (op.addr - d) 0#8)
    refine ⟨_, (eq_tileHalf_of_mem_tilePlan hop).trans (tileHalf_of_lowCovered hlo hend), ?_, hhigh⟩
    rw [hlow, some_getD_eq_getElem? (by omega)]
  · obtain ⟨hlow, hhigh⟩ := half_bytes_append (bytes.getD 0 0#8) 0#8
    refine ⟨_, (eq_tileHalf_of_mem_tilePlan hop).trans (tileHalf_of_highCovered hd hne), ?_, hlow⟩
    rw [hhigh, some_getD_eq_getElem? (List.length_pos_iff.2 hne)]

end Sys2Proof.Machine
end

section
/-! Framebuffers and the page flip (42_framebuffer.md): the one halfword each command writes, the byte M4_SET_PIXEL changes in
it, what the plotters do not read, and runs of flips. -/

namespace Sys2Proof.Machine

/-! Writes of a halfword -/

theorem read_writeHalf_outside {m : Memory} (hm : m.wf = true) {a x : Nat} (v : Half) (ha : a + 2 ≤ Config.spaceBytes)
    (hx : x < a ∨ a + 2 ≤ x) : (m.writeHalf a v).read x = m.read x := by
  rw [read_writeHalf hm a x v ha, if_neg (by omega), if_neg (by omega)]

theorem writeHalf_writeHalf_same {m : Memory} (hm : m.wf = true) {a : Nat} (v w : Half) (ha : a + 2 ≤ Config.spaceBytes) :
    (m.writeHalf a v).writeHalf a w = m.writeHalf a w := by
  have hv := wf_writeHalf hm a v ha
  refine memory_ext (wf_writeHalf hv a w ha) (wf_writeHalf hm a w ha) fun x => ?_
  rw [read_writeHalf hv a x w ha, read_writeHalf hm a x w ha, read_writeHalf hm a x v ha]
  split_ifs <;> rfl

/-- Writes of halfwords that share no byte commute. -/
theorem writeHalf_comm {m : Memory} (hm : m.wf = true) {a b : Nat} (v w : Half) (ha : a + 2 ≤ Config.spaceBytes)
    (hb : b + 2 ≤ Config.spaceBytes) (hapart : a + 2 ≤ b ∨ b + 2 ≤ a) :
    (m.writeHalf a v).writeHalf b w = (m.writeHalf b w).writeHalf a v := by
  have hav := wf_writeHalf hm a v ha
  have hbw := wf_writeHalf hm b w hb
  refine memory_ext (wf_writeHalf hav b w hb) (wf_writeHalf hbw a v ha) fun x => ?_
  by_cases hx : x < b ∨ b + 2 ≤ x
  · rw [read_writeHalf_outside hav w hb hx, read_writeHalf hm a x v ha, read_writeHalf hbw a x v ha,
      read_writeHalf_outside hm w hb hx]
  · have hx' : x < a ∨ a + 2 ≤ x := by omega
    rw [read_writeHalf_outside hbw v ha hx', read_writeHalf hav b x w hb, read_writeHalf hm b x w hb,
      read_writeHalf_outside hm v ha hx']

/-- A command that writes one halfword and completes: what it leaves and its frame. -/
theorem writesHalf_of_eq {o : Outcome} {s : State} {a : Nat} {v : Half} (hm : s.mem.wf = true)
    (ha : a + 2 ≤ Config.spaceBytes) (ho : o = .next (s.writeHalf a v).advance) :
    ∃ t, o = .next t ∧ OnlyMemory s t ∧ t.mem.readHalf a = v ∧ MemorySameOutside a 2 s t :=
  ⟨_, ho, rfl, readHalf_writeHalf_same hm a v ha, fun _ => read_writeHalf_outside hm v ha⟩

/-! The plotters by their operands -/

theorem onScreen_iff_toNat_lt (x y : Word) : onScreen x y = true ↔ x.toNat < 240 ∧ y.toNat < 160 :=
  (onScreen_iff x y).trans (and_congr (toInt_range_iff (n := 240) (by decide) x) (toInt_range_iff (n := 160) (by decide) y))

section
variable {x y color : Word}

theorem m3SetPixel_of_onScreen (s : State) (h : onScreen x y = true) :
    execM3SetPixel x y color s = .next (s.writeHalf (m3Cell x.toNat y.toNat) (color.setWidth 16)).advance := by
  obtain ⟨hx, hy⟩ := (onScreen_iff_toNat_lt x y).1 h
  rw [execM3SetPixel, if_pos h, operandNat_of_toNat_lt (by decide) hx, operandNat_of_toNat_lt (by decide) hy, low16, complete]

theorem m3SetPixel_of_offScreen (s : State) (h : ¬ onScreen x y = true) :
    execM3SetPixel x y color s = .next (s.raised .m3CoordRange) := by
  rw [execM3SetPixel, if_neg h, raiseUndefined]

theorem m3Cell_of_onScreen (h : onScreen x y = true) :
    0x06000000 ≤ m3Cell x.toNat y.toNat ∧ m3Cell x.toNat y.toNat + 2 ≤ Config.spaceBytes := by
  obtain ⟨hx, hy⟩ := (onScreen_iff_toNat_lt x y).1 h
  exact (m3Cell_bounds hx hy).imp_right fun hend => hend.trans (by decide)

theorem m4Cell_of_onScreen {s : State} (hd : s.DrawTargetLegal) (h : onScreen x y = true) :
    0x06000000 ≤ m4Cell s.dt x.toNat y.toNat ∧ m4Cell s.dt x.toNat y.toNat + 2 ≤ Config.spaceBytes := by
  obtain ⟨hx, hy⟩ := (onScreen_iff_toNat_lt x y).1 h
  exact (m4Cell_legal hd hx hy).2.imp_right fun hend => hend.trans (by decide)

/-- What M4_SET_PIXEL does when DT holds a page, the pixel is on the screen and the index is one. -/
theorem m4SetPixel_of_legal {s : State} (hd : s.DrawTargetLegal) (h : onScreen x y = true) (hc : inRange color 256 = true) :
    execM4SetPixel x y color s = .next (s.writeHalf (m4Cell s.dt x.toNat y.toNat)
      (m4NewCell x.toNat color.toNat (s.readHalf (m4Cell s.dt x.toNat y.toNat)))).advance := by
  obtain ⟨hx, hy⟩ := (onScreen_iff_toNat_lt x y).1 h
  have hcell : m4Cell s.dt x.toNat y.toNat + 2 ≤ 0x100000000 := (m4Cell_of_onScreen hd h).2
  have hp := (inRange_iff_toNat_lt (by decide) color).1 hc
  rw [← operandNat_of_toNat_lt (by decide) hx, ← operandNat_of_toNat_lt (by decide) hy] at hcell ⊢
  rw [← operandNat_of_toNat_lt (by decide) hp]
  rcases m4SetPixel_cases x y color s with ⟨-, -, -, hrun⟩ | ⟨hoff, -⟩ | ⟨-, hoff, -⟩ | ⟨-, -, hout, -⟩
  · exact hrun
  · cases h.symm.trans hoff
  · cases hc.symm.trans hoff
  · omega

theorem m4SetPixel_of_offScreen (s : State) (h : ¬ onScreen x y = true) :
    execM4SetPixel x y color s = .next (s.raised .m4CoordRange) := by
  rw [execM4SetPixel, if_pos (by simpa using h), raiseUndefined]

theorem m4SetPixel_of_noIndex (s : State) (h : onScreen x y = true) (hc : ¬ inRange color 256 = true) :
    execM4SetPixel x y color s = .next (s.raised .m4ColorRange) := by
  rw [execM4SetPixel, if_neg (by simpa using h), if_pos (by simpa using hc), raiseUndefined]

/-- The new cell in the words of 42_framebuffer.md R84. -/
theorem m4NewCell_eq (n : Nat) (old : Half) :
    m4NewCell n color.toNat old = if n % 2 = 1 then (old &&& 0x00FF#16) ||| (color.setWidth 16 <<< 8)
      else (old &&& 0xFF00#16) ||| color.setWidth 16 := by
  have hshift : BitVec.ofNat 16 (color.toNat <<< 8) = color.setWidth 16 <<< 8 := by
    apply BitVec.eq_of_toNat_eq
    simp only [BitVec.toNat_ofNat, BitVec.toNat_shiftLeft, BitVec.toNat_setWidth, Nat.shiftLeft_eq]
    omega
  rw [m4NewCell, m4Keep, m4Lane, hshift, BitVec.ofNat_toNat]
  split <;> rfl

end

/-! The byte of a mode-4 pixel -/

/-- Writing back a cell with one lane replaced changes that lane's byte alone. -/
theorem read_writeHalf_m4NewCell {m : Memory} (hm : m.wf = true) {c : Nat} (hc : c + 2 ≤ Config.spaceBytes) (x : Nat) {p : Nat}
    (hp : p < 256) (a : Nat) :
    (m.writeHalf c (m4NewCell x p (m.readHalf c))).read a = if a = c + x % 2 then BitVec.ofNat 8 p else m.read a := by
  obtain ⟨hlow, hhigh⟩ := m4Lanes x p hp (m.readHalf c)
  obtain ⟨hlow', hhigh'⟩ := readHalf_bytes m c
  rw [read_writeHalf hm c a _ hc, m4NewCell, hlow, hhigh, hlow', hhigh']
  by_cases hodd : x % 2 = 1
  · rw [if_pos hodd, if_pos hodd, hodd]
    rcases eq_or_ne a c with rfl | hne
    · rw [if_pos rfl, if_neg (by omega)]
    · rw [if_neg hne]
  · rw [if_neg hodd, if_neg hodd, show c + x % 2 = c by omega]
    rcases eq_or_ne a (c + 1) with rfl | hne
    · rw [if_neg (by omega), if_pos rfl, if_neg (by omega)]
    · rw [if_neg hne]

/-- M4_SET_PIXEL changes the one byte at DT + 240 y + x (42_framebuffer.md R82, R85). -/
theorem read_m4SetPixel {x y p : Word} {s t : State} (hs : s.Sound) (hxy : onScreen x y = true) (hp : p.toNat < 256)
    (h : execM4SetPixel x y p s = .next t) (a : Nat) :
    t.mem.read a = if a = s.dt.toNat + 240 * y.toNat + x.toNat then p.setWidth 8 else s.mem.read a := by
  obtain ⟨hm, hd⟩ := hs
  have hindex := (inRange_iff_toNat_lt (by decide) p).2 hp
  obtain rfl := Host.Outcome.next.inj (h.symm.trans (m4SetPixel_of_legal hd hxy hindex))
  have hbyte : s.dt.toNat + 240 * y.toNat + x.toNat = m4Cell s.dt x.toNat y.toNat + x.toNat % 2 := by
    rw [m4Cell, Config.m4RowCells]
    omega
  rw [hbyte, ← BitVec.ofNat_toNat]
  exact read_writeHalf_m4NewCell hm (m4Cell_of_onScreen hd hxy).2 x.toNat hp a

/-- The other pixel of a cell lies beside it on the same row. -/
theorem toNat_xor_one (x : Word) : (x ^^^ 1#32).toNat = if x.toNat % 2 = 1 then x.toNat - 1 else x.toNat + 1 := by
  rw [BitVec.toNat_xor, BitVec.toNat_ofNat, Nat.one_mod_two_pow (by decide)]
  split
  · next hodd => exact Nat.xor_one_of_odd (Nat.odd_iff.2 hodd)
  · next heven => exact Nat.xor_one_of_even (Nat.even_iff.2 (by omega))

/-! What the plotters do not read -/

/-- Another value in DISPCNT changes nothing in what a write outside it does. -/
theorem writeHalf_dispcnt_comm {s : State} (hm : s.mem.wf = true) {a : Nat} (v w : Half) (hlo : 0x06000000 ≤ a)
    (ha : a + 2 ≤ Config.spaceBytes) :
    (s.writeHalf Config.dispcntAddr v).writeHalf a w = (s.writeHalf a w).writeHalf Config.dispcntAddr v :=
  congrArg (fun m => { s with mem := m })
    (writeHalf_comm hm v w (by decide) ha (.inl (by simp only [Config.dispcntAddr]; omega)))

theorem m3SetPixel_writeHalf_dispcnt {x y color : Word} {s t : State} (hm : s.mem.wf = true) (v : Half)
    (h : execM3SetPixel x y color s = .next t) :
    execM3SetPixel x y color (s.writeHalf Config.dispcntAddr v) = .next (t.writeHalf Config.dispcntAddr v) := by
  by_cases hxy : onScreen x y = true
  · obtain rfl := Host.Outcome.next.inj (h.symm.trans (m3SetPixel_of_onScreen s hxy))
    obtain ⟨hlo, hend⟩ := m3Cell_of_onScreen hxy
    rw [m3SetPixel_of_onScreen _ hxy, writeHalf_dispcnt_comm hm _ _ hlo hend]
    rfl
  · obtain rfl := Host.Outcome.next.inj (h.symm.trans (m3SetPixel_of_offScreen s hxy))
    exact m3SetPixel_of_offScreen _ hxy

theorem m3SetPixel_setDt {x y color : Word} {s t : State} (d : Word) (h : execM3SetPixel x y color s = .next t) :
    execM3SetPixel x y color (s.setDt d) = .next (t.setDt d) := by
  by_cases hxy : onScreen x y = true
  · obtain rfl := Host.Outcome.next.inj (h.symm.trans (m3SetPixel_of_onScreen s hxy))
    exact m3SetPixel_of_onScreen _ hxy
  · obtain rfl := Host.Outcome.next.inj (h.symm.trans (m3SetPixel_of_offScreen s hxy))
    exact m3SetPixel_of_offScreen _ hxy

theorem m4SetPixel_writeHalf_dispcnt {x y color : Word} {s t : State} (hs : s.Sound) (v : Half)
    (h : execM4SetPixel x y color s = .next t) :
    execM4SetPixel x y color (s.writeHalf Config.dispcntAddr v) = .next (t.writeHalf Config.dispcntAddr v) := by
  obtain ⟨hm, hd⟩ := hs
  by_cases hxy : onScreen x y = true
  · by_cases hc : inRange color 256 = true
    · obtain rfl := Host.Outcome.next.inj (h.symm.trans (m4SetPixel_of_legal hd hxy hc))
      obtain ⟨hlo, hend⟩ := m4Cell_of_onScreen hd hxy
      have hcell : (s.writeHalf Config.dispcntAddr v).readHalf (m4Cell s.dt x.toNat y.toNat)
          = s.readHalf (m4Cell s.dt x.toNat y.toNat) :=
        readHalf_writeHalf_other hm _ _ v (by decide) (.inr (by simp only [Config.dispcntAddr]; omega))
      rw [m4SetPixel_of_legal (s := s.writeHalf Config.dispcntAddr v) hd hxy hc, writeHalf_dt, hcell,
        writeHalf_dispcnt_comm hm _ _ hlo hend]
      rfl
    · obtain rfl := Host.Outcome.next.inj (h.symm.trans (m4SetPixel_of_noIndex s hxy hc))
      exact m4SetPixel_of_noIndex _ hxy hc
  · obtain rfl := Host.Outcome.next.inj (h.symm.trans (m4SetPixel_of_offScreen s hxy))
    exact m4SetPixel_of_offScreen _ hxy

/-! Flips -/

theorem exec_m4Flip_mem {s t : State} (h : exec .m4Flip s = .next t) :
    t.mem = s.mem.writeHalf Config.dispcntAddr (s.mem.readHalf Config.dispcntAddr ^^^ pageMask) := by
  obtain rfl := Host.Outcome.next.inj h
  rfl

theorem exec_m4Flip_dispcnt {s t : State} (hm : s.mem.wf = true) (h : exec .m4Flip s = .next t) :
    t.mem.readHalf Config.dispcntAddr = s.mem.readHalf Config.dispcntAddr ^^^ pageMask := by
  rw [exec_m4Flip_mem h, readHalf_writeHalf_same hm _ _ (by decide)]

theorem exec_m4Flip_memorySameOutside {s t : State} (hm : s.mem.wf = true) (h : exec .m4Flip s = .next t) :
    MemorySameOutside Config.dispcntAddr 2 s t := fun x hx => by
  rw [exec_m4Flip_mem h, read_writeHalf_outside hm _ (by decide) hx]

theorem otherPage_ne {s : State} (hd : s.DrawTargetLegal) : otherPage s.dt ≠ s.dt := by
  rcases hd with h | h <;> rw [h] <;> decide

theorem otherPage_otherPage {s : State} (hd : s.DrawTargetLegal) : otherPage (otherPage s.dt) = s.dt := by
  rcases hd with h | h <;> rw [h] <;> decide

/-- Two flips restore DT and all of memory (42_framebuffer.md R87). -/
theorem exec_m4Flip_m4Flip {s t u : State} (hs : s.Sound) (h : exec .m4Flip s = .next t) (h' : exec .m4Flip t = .next u) :
    u.dt = s.dt ∧ u.mem = s.mem := by
  obtain ⟨hm, hd⟩ := hs
  constructor
  · rw [exec_m4Flip_dt h', exec_m4Flip_dt h, otherPage_otherPage hd]
  · rw [exec_m4Flip_mem h', exec_m4Flip_dispcnt hm h, exec_m4Flip_mem h, writeHalf_writeHalf_same hm _ _ (by decide),
      BitVec.xor_assoc, BitVec.xor_self, BitVec.xor_zero, writeHalf_readHalf hm (by decide)]

theorem exec_keeps_sound {i : Instr} {s t : State} (hs : s.Sound) (h : exec i s = .next t) : t.Sound :=
  ⟨exec_keeps_wf hs h, exec_keeps_drawTargetLegal hs.2 h⟩

section
variable {f : Nat → State} (h0 : (f 0).Sound) (hf : ∀ k, exec .m4Flip (f k) = .next (f (k + 1)))
include h0 hf

theorem flipRun_sound (k : Nat) : (f k).Sound := by
  induction k with
  | zero => exact h0
  | succ k ih => exact exec_keeps_sound ih (hf k)

theorem flipRun_even (k : Nat) : (f (2 * k)).dt = (f 0).dt ∧ (f (2 * k)).mem = (f 0).mem := by
  induction k with
  | zero => exact ⟨rfl, rfl⟩
  | succ k ih =>
    obtain ⟨hdt, hmem⟩ := exec_m4Flip_m4Flip (flipRun_sound h0 hf (2 * k)) (hf (2 * k)) (hf (2 * k + 1))
    exact ⟨hdt.trans ih.1, hmem.trans ih.2⟩

theorem flipRun_odd (k : Nat) : (f (2 * k + 1)).dt ≠ (f 0).dt ∧ (f (2 * k + 1)).pageBit = !(f 0).pageBit := by
  obtain ⟨hdt, hmem⟩ := flipRun_even h0 hf k
  constructor
  · rw [exec_m4Flip_dt (hf (2 * k)), hdt]
    exact otherPage_ne h0.2
  · rw [exec_m4Flip_pageBit (flipRun_sound h0 hf _).1 (hf (2 * k))]
    simp only [State.pageBit, State.dispcnt, State.readHalf, hmem]

end

/-- No step gives DT a value that is no page, a host write neither (42_framebuffer.md R87). -/
theorem step_keeps_drawTargetLegal {s t : State} (hd : s.DrawTargetLegal) (h : step s = .next t) : t.DrawTargetLegal := by
  obtain ⟨-, ⟨w, -, -, rfl⟩ | ⟨-, c, -, rfl⟩ | ⟨-, i, rest, u, -, hx, rfl⟩⟩ := step_cases h
  · exact hd
  · exact hd
  · rw [State.DrawTargetLegal, consume_dt]
    exact exec_keeps_drawTargetLegal hd hx

/-! The statements of 42_framebuffer.md -/

/-- Settles O24: on the screen M3_SET_PIXEL is one write of its cell, off the screen a raise. -/
theorem m3SetPixelWritesItsCell : Obligations.M3SetPixelWritesItsCell := fun x y color s => by
  refine ⟨rfl, fun hxy hm => ?_, fun hxy => m3SetPixel_of_offScreen s (mt (onScreen_iff x y).1 hxy)⟩
  have hscreen := (onScreen_iff x y).2 hxy
  exact writesHalf_of_eq hm (m3Cell_of_onScreen hscreen).2 (m3SetPixel_of_onScreen s hscreen)

/-- Settles O25: the state after a flip is explicit, and its memory differs in DISPCNT alone. -/
theorem m4FlipSwapsPages : Obligations.M4FlipSwapsPages :=
  ⟨rfl, fun _ hm => ⟨_, rfl, rfl, exec_m4Flip_dispcnt hm rfl, exec_m4Flip_memorySameOutside hm rfl⟩⟩

/-- Settles O26: M4_SET_PIXEL is one write of the new cell (`m4NewCell_eq`), or the first of its raises that applies. -/
theorem m4SetPixelWritesItsLane : Obligations.M4SetPixelWritesItsLane := by
  refine fun x y color s => ⟨rfl, fun hxy hcolor hs => ?_, fun hxy => ?_, fun hxy hcolor => ?_⟩
  · have hscreen := (onScreen_iff x y).2 hxy
    rw [← m4NewCell_eq]
    exact writesHalf_of_eq hs.1 (m4Cell_of_onScreen hs.2 hscreen).2
      (m4SetPixel_of_legal hs.2 hscreen ((inRange_iff color 256).2 hcolor))
  · exact m4SetPixel_of_offScreen s (mt (onScreen_iff x y).1 hxy)
  · exact m4SetPixel_of_noIndex s ((onScreen_iff x y).2 hxy) (mt (inRange_iff color 256).1 hcolor)

/-- Settles O28: each of the two commands changes its own byte (`read_m4SetPixel`), and `x ^^^ 1` is the other byte's pixel. -/
theorem m4LanesAreIndependent : Obligations.M4LanesAreIndependent := by
  intro x y p q s t u hs hx hy hp hq hset
  have hfirst := read_m4SetPixel hs ((onScreen_iff_toNat_lt x y).2 ⟨hx, hy⟩) hp hset
  refine ⟨by rw [hfirst, if_pos rfl], fun a ha => by rw [hfirst, if_neg ha], fun hset' => ?_⟩
  have hother := toNat_xor_one x
  have hx' : (x ^^^ 1#32).toNat < 240 := by split at hother <;> omega
  have hne : x.toNat ≠ (x ^^^ 1#32).toNat := by split at hother <;> omega
  have hdt : t.dt = s.dt := (exec_blockState hset).2.resolve_right fun hflip => nomatch hflip.1
  have hsecond := read_m4SetPixel (exec_keeps_sound hs hset) ((onScreen_iff_toNat_lt _ y).2 ⟨hx', hy⟩) hq hset'
  rw [hdt] at hsecond
  constructor
  · rw [hsecond, if_neg (by omega), hfirst, if_pos rfl]
  · rw [hsecond, if_pos rfl]

/-- Settles O29: the cells lie outside DISPCNT, and M3_SET_PIXEL's does not depend on DT. -/
theorem plottersIgnoreDisplayMode : Obligations.PlottersIgnoreDisplayMode := fun _ _ _ d v _ _ hs =>
  ⟨fun h => ⟨m3SetPixel_setDt d h, m3SetPixel_writeHalf_dispcnt hs.1 v h⟩, m4SetPixel_writeHalf_dispcnt hs v⟩

/-- Settles O30, by induction on the pairs of flips (`flipRun_even`). -/
theorem flipLaws : Obligations.FlipLaws := by
  refine ⟨fun f h0 hf k => ?_, fun d m => .inr rfl, fun s t => step_keeps_drawTargetLegal⟩
  obtain ⟨hdt, hmem⟩ := flipRun_even h0 hf k
  obtain ⟨hdt', hbit⟩ := flipRun_odd h0 hf k
  have hm := (flipRun_sound h0 hf k).1
  exact ⟨hdt, hmem, hdt', hbit, exec_m4Flip_dispcnt hm (hf k), exec_m4Flip_memorySameOutside hm (hf k)⟩

end Sys2Proof.Machine
end

section
/-! Object attributes (43_object_attributes.md): the field of SH that SET_ATTR replaces, the commit of SH to OAM, the sub-field
each codec reads of OAM, and who writes OAM. -/

namespace Sys2Proof.Machine

/-! The shadow buffer -/

/-- Two shadow buffers with the same bytes are the same data. -/
theorem sh_ext {s t : State} (h : ∀ k, k < 1024 → t.shByte k = s.shByte k) : t.sh = s.sh := by
  refine Vector.ext fun k hk => ?_
  simpa [State.shByte, hk] using h k hk

/-- Writing back the field that stands in SH changes nothing. -/
theorem shWrite_shRead (s : State) {off : Nat} (h : off + 2 ≤ 1024) : (s.shWrite off (s.shRead off)).sh = s.sh := by
  refine sh_ext fun k _ => ?_
  obtain ⟨hlow, hhigh⟩ := half_bytes_append (s.shByte (off + 1)) (s.shByte off)
  rw [shByte_shWrite s off k _ h, State.shRead, hlow, hhigh]
  split_ifs with h0 h1
  · rw [h0]
  · rw [h1]
  · rfl

/-! SET_ATTR by its operands -/

/-- SET_ATTR with its slot and field in range writes the low half of the value to that field of SH. -/
theorem setAttr_of_lt {index field : Word} (value : Word) (s : State) (hi : index.toNat < 128) (hf : field.toNat < 3) :
    exec (.setAttr index field value) s
      = .next (s.shWrite (index.toNat * 8 + 2 * field.toNat) (value.setWidth 16)).advance := by
  have hslot := (inRange_iff_toNat_lt (by decide) index).2 hi
  have hfield := (inRange_iff_toNat_lt (by decide) field).2 hf
  rcases setAttr_cases index field value s with ⟨-, -, h⟩ | ⟨hr, -⟩ | ⟨-, hr, -⟩
  · rw [operandNat_of_toNat_lt (by decide) hi, operandNat_of_toNat_lt (by decide) hf] at h
    exact h
  · cases hr.symm.trans hslot
  · cases hr.symm.trans hfield

theorem setAttr_of_noSlot {index : Word} (field value : Word) (s : State) (hi : ¬ index.toNat < 128) :
    exec (.setAttr index field value) s = .next (s.raised .oamIndexRange) := by
  have hslot := mt (inRange_iff_toNat_lt (by decide) index).1 hi
  rcases setAttr_cases index field value s with ⟨hr, -⟩ | ⟨-, h⟩ | ⟨hr, -⟩
  · exact absurd hr hslot
  · exact h
  · exact absurd hr hslot

theorem setAttr_of_noField {index field : Word} (value : Word) (s : State) (hi : index.toNat < 128)
    (hf : ¬ field.toNat < 3) : exec (.setAttr index field value) s = .next (s.raised .attrFieldRange) := by
  rcases setAttr_cases index field value s with ⟨-, hr, -⟩ | ⟨hr, -⟩ | ⟨-, -, h⟩
  · exact absurd ((inRange_iff_toNat_lt (by decide) field).1 hr) hf
  · cases hr.symm.trans ((inRange_iff_toNat_lt (by decide) index).2 hi)
  · exact h

/-- SET_ATTR writes no console memory (43_object_attributes.md R88). -/
theorem exec_setAttr_mem {index field value : Word} {s t : State} (h : exec (.setAttr index field value) s = .next t) :
    t.mem = s.mem := by
  rcases setAttr_cases index field value s with ⟨-, -, h'⟩ | ⟨-, h'⟩ | ⟨-, -, h'⟩ <;>
    obtain rfl := Host.Outcome.next.inj (h.symm.trans h') <;> rfl

/-! The commit -/

theorem oamByte_commit {s : State} (hm : s.mem.wf = true) {k : Nat} (hk : k < 1024) : s.commit.oamByte k = s.shByte k := by
  rw [State.oamByte, read_commit s hm, Config.oamBase, if_pos (by omega), Nat.add_sub_cancel_left]

theorem committed_commit {s : State} (hm : s.mem.wf = true) : s.commit.Committed :=
  fun _ hk => (oamByte_commit hm hk).symm

/-- The commit leaves every byte outside OAM. -/
theorem read_commit_outside {s : State} (hm : s.mem.wf = true) {x : Nat} (hx : x < 0x07000000 ∨ 0x07000400 ≤ x) :
    s.commit.mem.read x = s.mem.read x := by
  rw [read_commit s hm, if_neg (by omega)]

/-- A commit of what OAM holds already changes nothing. -/
theorem commit_mem_of_committed {s : State} (hm : s.mem.wf = true) (hc : s.Committed) : s.commit.mem = s.mem := by
  refine memory_ext (wf_writeRun hm _ _ (by simp)) hm fun x => ?_
  by_cases hx : 0x07000000 ≤ x ∧ x < 0x07000400
  · obtain ⟨k, rfl⟩ := Nat.exists_eq_add_of_le hx.1
    have hk : k < 1024 := by omega
    exact (oamByte_commit hm hk).trans (hc k hk)
  · exact read_commit_outside hm (by omega)

/-- A field of a slot of OAM is, after the commit, that field of the slot's record in SH. -/
theorem oamField_commit {s : State} (hm : s.mem.wf = true) {i f : Nat} (hi : i < 128) (hf : f < 3) :
    s.commit.oamField i f = s.shRead (fieldOffset i f) := by
  have hend := fieldOffset_bounds hi hf
  have hlow : s.commit.oamByte (fieldOffset i f) = s.shByte (fieldOffset i f) := oamByte_commit hm (by omega)
  have hhigh : s.commit.oamByte (fieldOffset i f + 1) = s.shByte (fieldOffset i f + 1) := oamByte_commit hm (by omega)
  rw [State.shRead, ← hlow, ← hhigh]
  rfl

/-- Committed depends on the bytes of SH and OAM alone. -/
theorem committed_congr {s t : State} (hc : s.Committed) (hsh : t.sh = s.sh)
    (hoam : ∀ k, k < 1024 → t.oamByte k = s.oamByte k) : t.Committed := fun k hk => by
  rw [hoam k hk, ← hc k hk, State.shByte, hsh, State.shByte]

/-! The codecs -/

/-- A codec's result in the words of 43_object_attributes.md R90. -/
theorem subField_eq_extractLsb' (h : Half) (lo w : Nat) : subField h lo w = (h.extractLsb' lo w).setWidth 32 := by
  have hlt : h.toNat / 2 ^ lo % 2 ^ w < 2 ^ 32 :=
    calc h.toNat / 2 ^ lo % 2 ^ w ≤ h.toNat := (Nat.mod_le _ _).trans (Nat.div_le_self _ _)
      _ < 2 ^ 32 := h.isLt.trans (by decide)
  apply BitVec.eq_of_toNat_eq
  rw [subField_toNat, BitVec.toNat_setWidth, BitVec.extractLsb'_toNat, Nat.shiftRight_eq_div_pow, Nat.mod_eq_of_lt hlt]

/-- A codec with its slot in range responds its sub-field of the slot. -/
theorem codec_of_lt (f lo w : Nat) {index : Word} (s : State) (hi : index.toNat < 128) :
    codec f lo w index s
      = .next (s.respond (((s.oamField index.toNat f).extractLsb' lo w).setWidth 32)).advance := by
  rcases codec_cases f lo w index s with ⟨-, h⟩ | ⟨hr, -⟩
  · rw [h, operandNat_of_toNat_lt (by decide) hi, subField_eq_extractLsb']
  · cases hr.symm.trans ((inRange_iff_toNat_lt (by decide) index).2 hi)

theorem codec_of_noSlot (f lo w : Nat) {index : Word} (s : State) (hi : ¬ index.toNat < 128) :
    codec f lo w index s = .next (s.raised .oamIndexRange) := by
  rcases codec_cases f lo w index s with ⟨hr, -⟩ | ⟨-, h⟩
  · exact absurd ((inRange_iff_toNat_lt (by decide) index).1 hr) hi
  · exact h

/-- The five codecs are one operation, each with its own field, position and width. -/
theorem exists_codec_of_isCodec {i : Instr} (hi : isCodec i = true) :
    ∃ f lo w index, f < 3 ∧ ∀ s, exec i s = codec f lo w index s := by
  cases i with
  | attr0Objy index => exact ⟨0, 0, 8, index, by decide, fun _ => rfl⟩
  | attr1Objx index => exact ⟨1, 0, 9, index, by decide, fun _ => rfl⟩
  | attr1Rot index => exact ⟨1, 9, 5, index, by decide, fun _ => rfl⟩
  | attr2Priority index => exact ⟨2, 10, 2, index, by decide, fun _ => rfl⟩
  | attr2Palette index => exact ⟨2, 12, 4, index, by decide, fun _ => rfl⟩
  | _ => cases hi

/-- A field of a slot lies in OAM. -/
theorem oamField_congr {s s' : State} (h : ∀ k, k < 1024 → s.oamByte k = s'.oamByte k) {i f : Nat} (hi : i < 128)
    (hf : f < 3) : s.oamField i f = s'.oamField i f := by
  have hend := fieldOffset_bounds hi hf
  have hlow : s.oamByte (fieldOffset i f) = s'.oamByte (fieldOffset i f) := h _ (by omega)
  have hhigh : s.oamByte (fieldOffset i f + 1) = s'.oamByte (fieldOffset i f + 1) := h _ (by omega)
  exact congrArg₂ (· ++ ·) hhigh hlow

/-- Over the same OAM a codec responds the same word or raises in both states (43_object_attributes.md R98). -/
theorem exec_codec_congr {i : Instr} {s s' : State} (hi : isCodec i = true)
    (h : ∀ k, k < 1024 → s.oamByte k = s'.oamByte k) :
    (∃ w : Word, exec i s = .next (s.respond w).advance ∧ exec i s' = .next (s'.respond w).advance) ∨
    (exec i s = .next (s.raised .oamIndexRange) ∧ exec i s' = .next (s'.raised .oamIndexRange)) := by
  obtain ⟨f, lo, w, index, hf, hexec⟩ := exists_codec_of_isCodec hi
  rw [hexec, hexec]
  by_cases hslot : index.toNat < 128
  · rw [codec_of_lt f lo w s hslot, codec_of_lt f lo w s' hslot, oamField_congr h hslot hf]
    exact .inl ⟨_, rfl, rfl⟩
  · exact .inr ⟨codec_of_noSlot f lo w s hslot, codec_of_noSlot f lo w s' hslot⟩

/-- After SET_ATTR on a field and the commit, that field of the slot of OAM holds the low half of the value. -/
theorem oamField_setAttr_updateOam {index field value : Word} {s t u : State} (hm : s.mem.wf = true)
    (hi : index.toNat < 128) (hf : field.toNat < 3) (hset : exec (.setAttr index field value) s = .next t)
    (hcommit : exec .updateOam t = .next u) : u.oamField index.toNat field.toNat = value.setWidth 16 := by
  obtain rfl := Host.Outcome.next.inj (hset.symm.trans (setAttr_of_lt value s hi hf))
  obtain rfl := Host.Outcome.next.inj hcommit
  exact (oamField_commit (s := (s.shWrite _ _).advance) hm hi hf).trans
    (shRead_shWrite_same s _ _ (fieldOffset_bounds hi hf))

/-- After SET_ATTR on a field and the commit, a codec of that field responds its bits of the value (43_object_attributes.md
R99). -/
theorem codec_after_setAttr_updateOam {index field : Word} (value : Word) {s : State} (hm : s.mem.wf = true)
    (hi : index.toNat < 128) (hf : field.toNat < 3) :
    ∃ t u, exec (.setAttr index field value) s = .next t ∧ exec .updateOam t = .next u ∧
      ∀ lo w, lo + w ≤ 16 →
        codec field.toNat lo w index u = .next (u.respond ((value.extractLsb' lo w).setWidth 32)).advance := by
  refine ⟨_, _, setAttr_of_lt value s hi hf, rfl, fun lo w hbits => ?_⟩
  rw [codec_of_lt field.toNat lo w _ hi,
    oamField_setAttr_updateOam hm hi hf (setAttr_of_lt value s hi hf) rfl, BitVec.extractLsb'_setWidth_of_le hbits]

/-! Who writes OAM -/

/-- The region of a command that is neither a codec nor the commit ends below OAM, when DT holds a page. -/
theorem regionOf_end_le_oam {s : State} (hd : s.DrawTargetLegal) {i : Instr} (hi : i ≠ .updateOam) (hc : isCodec i = false) :
    (regionOf i s).1 + (regionOf i s).2 ≤ 0x07000000 := by
  have hdt : s.dt.toNat ≤ 0x0600A000 := by rcases hd with h | h <;> rw [h] <;> decide
  cases i with
  | updateOam => exact absurd rfl hi
  | attr0Objy | attr1Objx | attr1Rot | attr2Priority | attr2Palette => cases hc
  | _ => simp only [regionOf]; omega

/-- A codec writes no console memory. -/
theorem exec_codec_mem {i : Instr} {s t : State} (hi : isCodec i = true) (h : exec i s = .next t) : t.mem = s.mem := by
  obtain ⟨f, lo, w, index, -, hexec⟩ := exists_codec_of_isCodec hi
  rcases codec_cases f lo w index s with ⟨-, h'⟩ | ⟨-, h'⟩ <;>
    obtain rfl := Host.Outcome.next.inj (h.symm.trans ((hexec s).trans h')) <;> rfl

/-- Every command but UPDATE_OAM leaves OAM (43_object_attributes.md R96). -/
theorem exec_keeps_oamByte {i : Instr} {s t : State} (hs : s.Sound) (hi : i ≠ .updateOam) (h : exec i s = .next t) (k : Nat) :
    t.oamByte k = s.oamByte k := by
  cases hc : isCodec i with
  | true => rw [State.oamByte, exec_codec_mem hc h, State.oamByte]
  | false =>
    have hend := regionOf_end_le_oam hs.2 hi hc
    exact exec_read_outside_region hs h (.inr (by rw [Config.oamBase]; omega))

theorem consume_oamByte (rest : List Word) (t : State) (k : Nat) : (t.consume rest).oamByte k = t.oamByte k := by
  rw [State.oamByte, consume_mem, State.oamByte]

/-- A host write that does not touch OAM leaves it. -/
theorem read_hostWriteMemory_oam {m : Memory} (hm : m.wf = true) {w : HostWrite} (halign : w.addr.toNat % w.width.bytes = 0)
    (hout : w.addr.toNat + w.width.bytes ≤ 0x07000000 ∨ 0x07000400 ≤ w.addr.toNat) {k : Nat} (hk : k < 1024) :
    (hostWriteMemory w m).read (Config.oamBase + k) = m.read (Config.oamBase + k) := by
  rw [read_hostWriteMemory hm halign, if_neg (by rw [Config.oamBase]; omega)]

/-! The statements of 43_object_attributes.md -/

/-- Settles O31: in range SET_ATTR is one write of a field of SH, else the first of its raises that applies. -/
theorem setAttrReplacesOneField : Obligations.SetAttrReplacesOneField := by
  intro index field value s
  have hslot : (0 ≤ index.toInt ∧ index.toInt < 128) ↔ index.toNat < 128 := toInt_range_iff (by decide) index
  have hfield : (0 ≤ field.toInt ∧ field.toInt < 3) ↔ field.toNat < 3 := toInt_range_iff (by decide) field
  rw [hslot, hfield]
  refine ⟨rfl, fun hi hf => ?_, setAttr_of_noSlot field value s, setAttr_of_noField value s⟩
  have hend : index.toNat * 8 + 2 * field.toNat + 2 ≤ 1024 := fieldOffset_bounds hi hf
  refine ⟨_, setAttr_of_lt value s hi hf, rfl, shRead_shWrite_same s _ _ hend, fun k hk => ?_, fun hsame => ?_⟩
  · exact (shByte_shWrite s _ k _ hend).trans (by rw [if_neg (by omega), if_neg (by omega)])
  · rw [← hsame]
    exact shWrite_shRead s hend

/-- Settles O32: the state after UPDATE_OAM is explicit, and `read_commit` gives every byte of its memory. -/
theorem updateOamCommitsAllOfSh : Obligations.UpdateOamCommitsAllOfSh :=
  ⟨rfl, fun _ hm => ⟨rfl, _, rfl, rfl, fun _ => oamByte_commit hm, fun _ => read_commit_outside hm,
    commit_mem_of_committed hm⟩⟩

/-- Settles O33: each codec is `codec` with its own field, position and width. -/
theorem codecsExtractTheirFields : Obligations.CodecsExtractTheirFields := by
  intro index s
  have hslot : (0 ≤ index.toInt ∧ index.toInt < 128) ↔ index.toNat < 128 := toInt_range_iff (by decide) index
  rw [hslot]
  exact ⟨⟨rfl, rfl, rfl, rfl, rfl⟩,
    fun hi => ⟨codec_of_lt 0 0 8 s hi, codec_of_lt 1 0 9 s hi, codec_of_lt 1 9 5 s hi, codec_of_lt 2 10 2 s hi,
      codec_of_lt 2 12 4 s hi⟩,
    fun hi => ⟨codec_of_noSlot 0 0 8 s hi, codec_of_noSlot 1 0 9 s hi, codec_of_noSlot 1 9 5 s hi,
      codec_of_noSlot 2 10 2 s hi, codec_of_noSlot 2 12 4 s hi⟩⟩

/-- Settles O34: with no host write due the step raises or runs a command other than UPDATE_OAM (`exec_keeps_oamByte`). -/
theorem onlyCommitAndHostWriteOam : Obligations.OnlyCommitAndHostWriteOam := by
  intro s t hs hhost hfetch h k _
  obtain ⟨-, ⟨w, hw, -⟩ | ⟨-, c, -, rfl⟩ | ⟨-, i, rest, u, hd, hx, rfl⟩⟩ := step_cases h
  · cases hhost.symm.trans hw
  · rfl
  · rw [consume_oamByte]
    exact exec_keeps_oamByte hs (fun hi => hfetch rest (hi ▸ hd)) hx k

/-- Settles O35: UPDATE_OAM establishes Committed; every other step of the premises leaves both SH and OAM. -/
theorem committedHoldsUntilBroken : Obligations.CommittedHoldsUntilBroken := by
  refine ⟨fun s t hm h => ?_, fun s t hs hc h hsh hhost => ?_⟩
  · obtain rfl := Host.Outcome.next.inj h
    exact committed_commit hm
  · obtain ⟨-, ⟨w, hw, halign, rfl⟩ | ⟨-, c, -, rfl⟩ | ⟨-, i, rest, u, -, hx, rfl⟩⟩ := step_cases h
    · exact committed_congr hc rfl fun _ => read_hostWriteMemory_oam hs.1 halign (hhost w hw)
    · exact hc
    · by_cases hi : i = .updateOam
      · subst hi
        obtain rfl := Host.Outcome.next.inj hx
        exact committed_congr (committed_commit hs.1) (consume_sh rest _) fun k _ => consume_oamByte rest _ k
      · exact committed_congr hc hsh fun k _ => (consume_oamByte rest u k).trans (exec_keeps_oamByte hs hi hx k)

/-- Settles O36: a codec reads OAM alone (`exec_codec_congr`), and SET_ATTR writes no memory. -/
theorem codecsSeeOnlyOam : Obligations.CodecsSeeOnlyOam := by
  refine ⟨fun i s s' hi h => exec_codec_congr hi h, fun i index field value s t hi h => exec_codec_congr hi fun k _ => ?_⟩
  rw [State.oamByte, State.oamByte, exec_setAttr_mem h]

/-- Settles O37, field by field: the value goes to SH, the commit takes it to OAM, and a codec reads its bits there. -/
theorem codecsReadBackAfterCommit : Obligations.CodecsReadBackAfterCommit := by
  intro index value s hm hi
  refine ⟨?_, ?_, ?_⟩
  · obtain ⟨t, u, hset, hcommit, hread⟩ := codec_after_setAttr_updateOam (field := 0#32) value hm hi (by decide)
    exact ⟨t, u, hset, hcommit, hread 0 8 (by decide)⟩
  · obtain ⟨t, u, hset, hcommit, hread⟩ := codec_after_setAttr_updateOam (field := 1#32) value hm hi (by decide)
    exact ⟨t, u, hset, hcommit, hread 0 9 (by decide), hread 9 5 (by decide)⟩
  · obtain ⟨t, u, hset, hcommit, hread⟩ := codec_after_setAttr_updateOam (field := 2#32) value hm hi (by decide)
    exact ⟨t, u, hset, hcommit, hread 10 2 (by decide), hread 12 4 (by decide)⟩

end Sys2Proof.Machine
end

section
/-! Exceptions (60_exceptions.md): which causes the decoder and a command can raise, and that a step which records a cause
leaves everything else as it was. -/

namespace Sys2Proof

/-- The decoder raises RESERVED_NONZERO by the header's reserved bits, ILLEGAL_OPCODE by its opcode, and TRUNCATED_COMMAND in
the words behind it (60_exceptions.md R102, R106). -/
theorem decode_raises_cases {ws : List Word} {c : Cause} (hd : decode ws = .raises c) :
    c = .reservedNonzero ∨ c = .illegalOpcode ∨ c = .truncatedCommand := by
  cases ws with
  | nil => cases hd
  | cons h ws =>
    by_cases hr : headerRsv h = 0#24
    · cases hf : formatOf (headerOpc h) with
      | none => exact .inr (.inl (Decoded.raises.inj (hd.symm.trans (decode_of_illegal hr hf ws))))
      | some f =>
        have hread : readOperands f ws = .raises c := (decode_of_format hr hf ws).symm.trans hd
        rcases readOperands_cases f ws with ⟨i, rest, -, hcommand, -⟩ | htruncated
        · cases hread.symm.trans hcommand
        · exact .inr (.inr (Decoded.raises.inj (hread.symm.trans htruncated)))
    · exact .inl (Decoded.raises.inj (hd.symm.trans (decode_of_reserved hr ws)))

end Sys2Proof

namespace Sys2Proof.Machine

/-- A command that records a cause in a block without one raised it: it is one of its own causes, and nothing else changed
(60_exceptions.md R102, R105). -/
theorem exec_raised_of_fault {i : Instr} {s t : State} {c : Cause} (hf : s.fault = none) (h : exec i s = .next t)
    (hc : t.fault = some c) : c ∈ causesOf i ∧ t = s.raised c := by
  rcases exec_next_cases h with ⟨hfault, -⟩ | ⟨c', hmem, rfl⟩
  · cases (hfault.trans hf).symm.trans hc
  · obtain rfl : c' = c := Option.some.inj hc
    exact ⟨hmem, rfl⟩

/-- The words of a command that raised stay in the stream (60_exceptions.md R103). -/
theorem consume_raised (rest : List Word) (c : Cause) (s : State) : (s.raised c).consume rest = s.raised c := rfl

/-! The statements of 60_exceptions.md -/

/-- Settles O38: the codes are those of `causeCode`; the rows are `exec_raised_of_fault`, and the decoder's three causes
`decode_raises_cases`. -/
theorem causesAndTheirCommands : Obligations.CausesAndTheirCommands := by
  refine ⟨rfl, fun i s t c hf h hc => (exec_raised_of_fault hf h hc).1, fun ws c hd => ?_⟩
  rcases decode_raises_cases hd with rfl | rfl | rfl <;> decide

/-- Settles O39: a host write leaves FAULT none, the decoder's raise changes FAULT alone, and so does a command's raise, whose
words stay in the stream. -/
theorem faultsArePrecise : Obligations.FaultsArePrecise := by
  intro s t c h hc
  obtain ⟨hf, ⟨w, -, -, rfl⟩ | ⟨-, c', -, rfl⟩ | ⟨-, i, rest, u, -, hx, rfl⟩⟩ := step_cases h
  · cases hf.symm.trans hc
  · obtain rfl : c' = c := Option.some.inj hc
    rfl
  · obtain ⟨-, rfl⟩ := exec_raised_of_fault hf hx ((consume_fault rest u).symm.trans hc)
    exact consume_raised rest c s

end Sys2Proof.Machine
end

section
/-! Install, stops and hazards (70_reset_and_hazards.md): when a step answers no next state, what the host's writes do to
the page coupling and to OAM, and that install leaves a sound state. -/

namespace Sys2Proof.Machine

/-! Steps that stop -/

/-- The decoder finds no command exactly when the stream has ended. -/
theorem fetch_eq_ended_iff (s : State) : s.fetch = .ended ↔ s.stream = [] := by
  rw [State.fetch]
  cases s.stream with
  | nil => exact iff_of_true rfl rfl
  | cons h ws =>
    refine iff_of_false (fun hd => ?_) (List.cons_ne_nil h ws)
    by_cases hr : headerRsv h = 0#24
    · cases hf : formatOf (headerOpc h) with
      | none => cases hd.symm.trans (decode_of_illegal hr hf ws)
      | some f =>
        have hread := (decode_of_format hr hf ws).symm.trans hd
        rcases readOperands_cases f ws with ⟨i, rest, -, hcommand, -⟩ | htruncated
        · cases hread.symm.trans hcommand
        · cases hread.symm.trans htruncated
    · cases hd.symm.trans (decode_of_reserved hr ws)

theorem step_of_fault {s : State} {c : Cause} (hf : s.fault = some c) : step s = .fault (.stopped c) := by
  simp only [step, hf]

theorem step_of_endedNormally {s : State} (he : s.EndedNormally) : step s = .fault .endOfRun := by
  obtain ⟨hf, hstream, hw⟩ := he
  simp only [step, hf, hw, (fetch_eq_ended_iff s).2 hstream]

/-- A step answers a next state, or it has one of the four reasons not to: the block has faulted, the run has ended normally, DT
holds no page, or the due host write is misaligned. -/
theorem step_outcome_cases (s : State) :
    (∃ t, step s = .next t) ∨
    (∃ c, s.fault = some c ∧ step s = .fault (.stopped c)) ∨
    (s.EndedNormally ∧ step s = .fault .endOfRun) ∨
    (¬ s.DrawTargetLegal ∧ step s = .fault .outsideAddressSpace) ∨
    (∃ w, s.dueHostWrite = some w ∧ w.addr.toNat % w.width.bytes ≠ 0 ∧ step s = .refused .misalignedHostAccess) := by
  cases hf : s.fault with
  | some c => exact .inr (.inl ⟨c, rfl, step_of_fault hf⟩)
  | none =>
    cases hw : s.dueHostWrite with
    | some w =>
      rw [step_of_dueHostWrite hf hw, performHostWrite]
      split
      · exact .inl ⟨_, rfl⟩
      · next hmis => exact .inr (.inr (.inr (.inr ⟨w, rfl, hmis, rfl⟩)))
    | none =>
      cases hd : s.fetch with
      | ended =>
        have he : s.EndedNormally := ⟨hf, (fetch_eq_ended_iff s).1 hd, hw⟩
        exact .inr (.inr (.inl ⟨he, step_of_endedNormally he⟩))
      | raises c => exact .inl ⟨_, step_of_raises ⟨hf, hw⟩ hd⟩
      | command i rest =>
        rw [step_of_ready ⟨hf, hw⟩ hd]
        rcases exec_cases i s with ⟨t, hx, -⟩ | ⟨c, -, hx⟩ | ⟨x, y, color, -, hdt, hx⟩ <;> rw [hx]
        · exact .inl ⟨_, rfl⟩
        · exact .inl ⟨_, rfl⟩
        · exact .inr (.inr (.inr (.inl ⟨hdt, rfl⟩)))

/-! Hazards of the host's writes -/

/-- Where DT stays and the page bit changes, the coupling is inverted. -/
theorem coupled_iff_not_of_pageBit_ne {s t : State} (hdt : t.dt = s.dt) (hbit : t.pageBit ≠ s.pageBit) :
    t.Coupled ↔ ¬ s.Coupled := by
  have hflip : t.pageBit = false ↔ ¬ s.pageBit = false := by
    rw [Bool.eq_not.2 hbit, Bool.not_eq_false', Bool.not_eq_false]
  rw [State.Coupled, State.Coupled, hdt, hflip]
  tauto

/-- The commit overwrites all of OAM, so it does not matter what OAM held (70_reset_and_hazards.md R131). -/
theorem commit_of_same_outside_oam {s : State} {m : Memory} (hs : s.mem.wf = true) (hm : m.wf = true)
    (h : ∀ x, x < 0x07000000 ∨ 0x07000400 ≤ x → m.read x = s.mem.read x) :
    State.commit { s with mem := m } = s.commit := by
  have hmem : (State.commit { s with mem := m }).mem = s.commit.mem := by
    refine memory_ext (wf_writeRun hm _ _ (by simp)) (wf_writeRun hs _ _ (by simp)) fun x => ?_
    rw [read_commit _ hm, read_commit s hs]
    split_ifs with hx
    · rfl
    · exact h x (by omega)
  exact congrArg (fun n => { s with mem := n }) hmem

/-! Install -/

theorem sound_install {m : Memory} (hm : m.wf = true) (d : Half) : (State.install d m).Sound :=
  ⟨wf_installMemory hm d, .inr rfl⟩

/-! The statements of 70_reset_and_hazards.md -/

/-- Settles O10: of the outcomes in `step_outcome_cases` only the one with the stop asked for is left. -/
theorem everyStopHasItsReason : Obligations.EveryStopHasItsReason := by
  refine fun s => ⟨fun c => ⟨fun h => ?_, step_of_fault⟩, ⟨fun h => ?_, step_of_endedNormally⟩, fun h => ?_, fun r h => ?_,
    fun he => if_pos he⟩
  all_goals
    rcases step_outcome_cases s with ⟨t, hs⟩ | ⟨c', hf, hs⟩ | ⟨he, hs⟩ | ⟨hd, hs⟩ | ⟨w, hw, hmis, hs⟩ <;>
      cases h.symm.trans hs
  · exact hf
  · exact he
  · exact hd
  · exact ⟨rfl, w, hw, hmis⟩

/-- Settles O51: the two states after the commit are one (`commit_of_same_outside_oam`). -/
theorem commitUndoesHostOamWrites : Obligations.CommitUndoesHostOamWrites := fun _ _ hs hm h =>
  congrArg complete (commit_of_same_outside_oam hs hm h)

/-- Settles O50: a host write leaves DT (`step_hostWrite_frame`). -/
theorem hostPageBitChangeInvertsTheCoupling : Obligations.HostPageBitChangeInvertsTheCoupling := fun _ _ h hw =>
  coupled_iff_not_of_pageBit_ne (by rw [step_hostWrite_frame h hw])

/-- Settles O53: install's writes keep memory canonical and its DT is page 1; reset is install over the empty memory. -/
theorem installIsSound : Obligations.InstallIsSound :=
  ⟨fun d _ hm => sound_install hm d, sound_install rfl 0x0000#16⟩

end Sys2Proof.Machine
end
